-- ==== Sys2Proof/Word.lean ====
section
/-! DEFINITION. The word types of the port and of the datapath, and the three configuration axes that
CFG_BEGIN chooses (spec/00_scope.md R6, R9 to R12). Their bit encodings stand in `Decode.lean`. -/

namespace Sys2Proof

/-- A word of the port or of the datapath. DATA_IN and DATA_OUT are 64 bits (R10). A `W`-bit word, `W ≤ 64`,
is held zero-extended (`zext_64`, R13), so a value of it is below `2 ^ W`. -/
abbrev Word := BitVec 64

/-- The command word `CMD` (R10, R49). -/
abbrev CmdWord := BitVec 32

/-- A field identifier: an 8-bit tag, compared only for equality (R9). -/
abbrev Ident := BitVec 8

/-- A bank number, `CSEL` (R51). -/
abbrev BankSel := BitVec 4

/-- The storage width `W`: 8, 16, 32 or 64 bits (R6). -/
inductive StorageWidth where
  | w8
  | w16
  | w32
  | w64
deriving DecidableEq, Repr

/-- The byte order of external words (R11, R42). -/
inductive ByteOrder where
  | big
  | little
deriving DecidableEq, Repr

/-- The field order: the end of the word the first-declared field lands on (R11, R69, R70). -/
inductive FieldOrder where
  | msbFirst
  | lsbFirst
deriving DecidableEq, Repr

end Sys2Proof
end

