-- ==== Sys2Proof/Syntax.lean ====
section
/-! DEFINITION. The commands of the block as syntax: one constructor per row of spec/opcode_table.json
(spec/30_encoding.md R57). A command carries the fields of `CMD` that its row uses; `DATA_IN` travels beside
`CMD` and no decoding reads it (R56, R58), so it is no part of the syntax. -/

namespace Sys2Proof

/-- One command of the block. -/
inductive Instr where
  /-- NOP (R93). -/
  | nop
  /-- CFG_BEGIN: storage width, byte order, field order (R65). -/
  | cfgBegin (w : StorageWidth) (bo : ByteOrder) (fo : FieldOrder)
  /-- CFG_FIELD: identifier, width (R66). -/
  | cfgField (id : Ident) (width : BitVec 7)
  /-- CFG_COMMIT (R67). -/
  | cfgCommit
  /-- CLEAR: bank (R78). -/
  | clear (csel : BankSel)
  /-- UNPACK: bank; the raw word is on DATA_IN (R79). -/
  | unpack (csel : BankSel)
  /-- WRITE_FIELD: bank, identifier; the value is on DATA_IN (R80). -/
  | writeField (csel : BankSel) (id : Ident)
  /-- READ_FIELD: bank, identifier (R81). -/
  | readField (csel : BankSel) (id : Ident)
  /-- EXTRACT: bank, identifier (R82). -/
  | extract (csel : BankSel) (id : Ident)
  /-- SERIALIZE: bank (R83). -/
  | serialize (csel : BankSel)
  /-- QUERY_SHIFT: identifier (R94). -/
  | queryShift (id : Ident)
  /-- QUERY_MASK: identifier (R95). -/
  | queryMask (id : Ident)
  /-- QUERY_LAYOUT (R96). -/
  | queryLayout
  /-- READ_STATUS (R97). -/
  | readStatus
  /-- RESERVED_OP_E: a whole command word whose OP is 0xE, its other bits anything (R59). -/
  | reservedOpE (cmd : CmdWord)
  /-- RESERVED_OP_F: a whole command word whose OP is 0xF, its other bits anything (R59). -/
  | reservedOpF (cmd : CmdWord)
deriving DecidableEq, Repr

end Sys2Proof
end

