-- ==== Sys2Proof/WellFormed.lean ====
section
/-! DEFINITION. Which terms of `Instr` stand for a command word. The operand fields carry their width in
their type (spec/30_encoding.md R51 to R55: every value of CSEL, ID, WIDTH, WSEL, BO and FO is encodable), so
the one thing left to check is that a reserved-OP term holds a word of its own OP (R59). -/

namespace Sys2Proof

/-- The term is the image of some command word. -/
def Instr.wellFormed : Instr → Bool
  | .nop => true
  | .cfgBegin _ _ _ => true
  | .cfgField _ _ => true
  | .cfgCommit => true
  | .clear _ => true
  | .unpack _ => true
  | .writeField _ _ => true
  | .readField _ _ => true
  | .extract _ _ => true
  | .serialize _ => true
  | .queryShift _ => true
  | .queryMask _ => true
  | .queryLayout => true
  | .readStatus => true
  | .reservedOpE cmd => cmd.extractLsb' 0 4 == 0xE#4
  | .reservedOpF cmd => cmd.extractLsb' 0 4 == 0xF#4

end Sys2Proof
end

