-- ==== Sys2Proof/Decode.lean ====
section
/-! DEFINITION. The command encoding (spec/30_encoding.md): the fields of `CMD` (R50 to R55), the opcode map as a
table of masks and patterns (R57), the total decoder (R58 to R60) and the encoder (R63's formula). -/

namespace Sys2Proof

/-! ### The configuration axes and their bits -/

/-- `W = 8 << WSEL` in bits (R6, R54). -/
def StorageWidth.bits : StorageWidth → Nat
  | .w8 => 8
  | .w16 => 16
  | .w32 => 32
  | .w64 => 64

/-- The WSEL field that selects a width (R54). -/
def StorageWidth.toWsel : StorageWidth → BitVec 2
  | .w8 => 0b00#2
  | .w16 => 0b01#2
  | .w32 => 0b10#2
  | .w64 => 0b11#2

/-- The width a WSEL field selects; all four values are legal (R54). -/
def StorageWidth.ofWsel (b : BitVec 2) : StorageWidth :=
  if b = 0b00#2 then .w8 else if b = 0b01#2 then .w16 else if b = 0b10#2 then .w32 else .w64

/-- 0 = BIG, 1 = LITTLE (R17, R55). -/
def ByteOrder.toBit : ByteOrder → BitVec 1
  | .big => 0#1
  | .little => 1#1

/-- 0 = BIG, 1 = LITTLE (R17, R55). -/
def ByteOrder.ofBit (b : BitVec 1) : ByteOrder := if b = 0#1 then .big else .little

/-- 0 = MSB_FIRST, 1 = LSB_FIRST (R17, R55). -/
def FieldOrder.toBit : FieldOrder → BitVec 1
  | .msbFirst => 0#1
  | .lsbFirst => 1#1

/-- 0 = MSB_FIRST, 1 = LSB_FIRST (R17, R55). -/
def FieldOrder.ofBit (b : BitVec 1) : FieldOrder := if b = 0#1 then .msbFirst else .lsbFirst

/-! ### The fields of CMD (R50) -/

/-- `OP = CMD[3:0]`. -/
def opField (w : CmdWord) : BitVec 4 := w.extractLsb' 0 4

/-- `CSEL = CMD[7:4]` (R51). -/
def cselField (w : CmdWord) : BankSel := w.extractLsb' 4 4

/-- `ID = CMD[15:8]` (R52). -/
def idField (w : CmdWord) : Ident := w.extractLsb' 8 8

/-- `WIDTH = CMD[22:16]` (R53). -/
def widthField (w : CmdWord) : BitVec 7 := w.extractLsb' 16 7

/-- `WSEL = CMD[24:23]` (R54). -/
def wselField (w : CmdWord) : BitVec 2 := w.extractLsb' 23 2

/-- `BO = CMD[25]` (R55). -/
def boField (w : CmdWord) : BitVec 1 := w.extractLsb' 25 1

/-- `FO = CMD[26]` (R55). -/
def foField (w : CmdWord) : BitVec 1 := w.extractLsb' 26 1

/-! ### The opcode map (R57) -/

/-- A row of the opcode map: a word `w` is of the row when `w & mask = pattern` (R58; the spec's column is
called match). -/
structure Row where
  mnemonic : String
  pattern : CmdWord
  mask : CmdWord
  build : CmdWord → Instr

/-- `(w & mask) = match` (R58). -/
def Row.fits (r : Row) (w : CmdWord) : Bool := w &&& r.mask == r.pattern

def rowNop : Row := ⟨"NOP", 0x00000000#32, 0xFFFFFFFF#32, fun _ => .nop⟩
def rowCfgBegin : Row := ⟨"CFG_BEGIN", 0x00000001#32, 0xF87FFFFF#32, fun w =>
  .cfgBegin (.ofWsel (wselField w)) (.ofBit (boField w)) (.ofBit (foField w))⟩
def rowCfgField : Row := ⟨"CFG_FIELD", 0x00000002#32, 0xFF8000FF#32, fun w => .cfgField (idField w) (widthField w)⟩
def rowCfgCommit : Row := ⟨"CFG_COMMIT", 0x00000003#32, 0xFFFFFFFF#32, fun _ => .cfgCommit⟩
def rowClear : Row := ⟨"CLEAR", 0x00000004#32, 0xFFFFFF0F#32, fun w => .clear (cselField w)⟩
def rowUnpack : Row := ⟨"UNPACK", 0x00000005#32, 0xFFFFFF0F#32, fun w => .unpack (cselField w)⟩
def rowWriteField : Row := ⟨"WRITE_FIELD", 0x00000006#32, 0xFFFF000F#32, fun w => .writeField (cselField w) (idField w)⟩
def rowReadField : Row := ⟨"READ_FIELD", 0x00000007#32, 0xFFFF000F#32, fun w => .readField (cselField w) (idField w)⟩
def rowExtract : Row := ⟨"EXTRACT", 0x00000008#32, 0xFFFF000F#32, fun w => .extract (cselField w) (idField w)⟩
def rowSerialize : Row := ⟨"SERIALIZE", 0x00000009#32, 0xFFFFFF0F#32, fun w => .serialize (cselField w)⟩
def rowQueryShift : Row := ⟨"QUERY_SHIFT", 0x0000000A#32, 0xFFFF00FF#32, fun w => .queryShift (idField w)⟩
def rowQueryMask : Row := ⟨"QUERY_MASK", 0x0000000B#32, 0xFFFF00FF#32, fun w => .queryMask (idField w)⟩
def rowQueryLayout : Row := ⟨"QUERY_LAYOUT", 0x0000000C#32, 0xFFFFFFFF#32, fun _ => .queryLayout⟩
def rowReadStatus : Row := ⟨"READ_STATUS", 0x0000000D#32, 0xFFFFFFFF#32, fun _ => .readStatus⟩
/-- OP 0xE is reserved whatever the other bits (R59). -/
def rowReservedE : Row := ⟨"RESERVED_OP_E", 0x0000000E#32, 0x0000000F#32, .reservedOpE⟩
/-- OP 0xF is reserved whatever the other bits (R59). -/
def rowReservedF : Row := ⟨"RESERVED_OP_F", 0x0000000F#32, 0x0000000F#32, .reservedOpF⟩

/-- The 16 rows in the order of R57: row `k` has `OP = k`. -/
def rows : List Row :=
  [rowNop, rowCfgBegin, rowCfgField, rowCfgCommit, rowClear, rowUnpack, rowWriteField, rowReadField,
   rowExtract, rowSerialize, rowQueryShift, rowQueryMask, rowQueryLayout, rowReadStatus, rowReservedE, rowReservedF]

/-! ### The decoder -/

/-- Why a word is of no row. The verdict is the decoder's; the block then answers ERR_ILLEGAL (R58, R109). -/
inductive DecodeError where
  /-- A bit outside OP and outside the fields its row uses is 1 (R60). -/
  | unusedBits (op : BitVec 4)
deriving DecidableEq, Repr

/-- The row of a word (R58); at most one fits, since the rows' OPs differ. -/
def rowOfWord (w : CmdWord) : Option Row := rows.find? (fun r => r.fits w)

/-- The decoder, total on all `2 ^ 32` words (R58). It reads CMD only. -/
def decode (w : CmdWord) : Except DecodeError Instr :=
  match rowOfWord w with
  | some r => .ok (r.build w)
  | none => .error (.unusedBits (opField w))

/-! ### The encoder -/

/-- `CMD = OP | CSEL<<4 | ID<<8 | WIDTH<<16 | WSEL<<23 | BO<<25 | FO<<26` (R63). -/
def pack (op : BitVec 4) (csel : BankSel) (id : Ident) (width : BitVec 7) (wsel : BitVec 2) (bo fo : BitVec 1) : CmdWord :=
  op.setWidth 32 ||| (csel.setWidth 32 <<< 4) ||| (id.setWidth 32 <<< 8) ||| (width.setWidth 32 <<< 16)
    ||| (wsel.setWidth 32 <<< 23) ||| (bo.setWidth 32 <<< 25) ||| (fo.setWidth 32 <<< 26)

/-- The command word of a well-formed instruction: its fields packed, every unused field 0 (R60, R63). -/
def encode : Instr → CmdWord
  | .nop => pack 0x0 0 0 0 0 0 0
  | .cfgBegin w bo fo => pack 0x1 0 0 0 w.toWsel bo.toBit fo.toBit
  | .cfgField id width => pack 0x2 0 id width 0 0 0
  | .cfgCommit => pack 0x3 0 0 0 0 0 0
  | .clear csel => pack 0x4 csel 0 0 0 0 0
  | .unpack csel => pack 0x5 csel 0 0 0 0 0
  | .writeField csel id => pack 0x6 csel id 0 0 0 0
  | .readField csel id => pack 0x7 csel id 0 0 0 0
  | .extract csel id => pack 0x8 csel id 0 0 0 0
  | .serialize csel => pack 0x9 csel 0 0 0 0 0
  | .queryShift id => pack 0xA 0 id 0 0 0 0
  | .queryMask id => pack 0xB 0 id 0 0 0 0
  | .queryLayout => pack 0xC 0 0 0 0 0 0
  | .readStatus => pack 0xD 0 0 0 0 0 0
  | .reservedOpE cmd => cmd
  | .reservedOpF cmd => cmd

/-- The row of R57 an instruction belongs to. -/
def rowOf : Instr → Row
  | .nop => rowNop
  | .cfgBegin _ _ _ => rowCfgBegin
  | .cfgField _ _ => rowCfgField
  | .cfgCommit => rowCfgCommit
  | .clear _ => rowClear
  | .unpack _ => rowUnpack
  | .writeField _ _ => rowWriteField
  | .readField _ _ => rowReadField
  | .extract _ _ => rowExtract
  | .serialize _ => rowSerialize
  | .queryShift _ => rowQueryShift
  | .queryMask _ => rowQueryMask
  | .queryLayout => rowQueryLayout
  | .readStatus => rowReadStatus
  | .reservedOpE _ => rowReservedE
  | .reservedOpF _ => rowReservedF

/-! ### Words numbered as the opcode table numbers them -/

/-- The low 32 bits of an instruction's bits: `CMD`. The port carries `CMD` whole, so there is no byte order
to settle; the table numbers its bit 0 as the least significant one (R50). -/
def tableCmd (nbits w : Nat) : CmdWord := BitVec.ofNat 32 (w % 2 ^ nbits)

/-- The bits from 32 up: `DATA_IN`, 0 where the table gives the row no more than its 32 bits (log entry 3). -/
def tableData (nbits w : Nat) : Word := BitVec.ofNat 64 ((w % 2 ^ nbits) >>> 32)

/-- The instruction the decoder reads from an instruction's bits, `none` where it refuses. -/
def decodeTableWord (nbits w : Nat) : Option Instr :=
  match decode (tableCmd nbits w) with
  | .ok i => some i
  | .error _ => none

end Sys2Proof
end

