-- ==== Sys2Proof/Config.lean ====
section
/-! DEFINITION. What an implementation of the block fixes (spec/00_scope.md §3).

`N_CONT` is OPEN (R7): it is a parameter, held as data that no step writes, so that a statement about every
state is a statement about every `N_CONT` (log entry 1). `LAT(op, FCOUNT)` is OPEN too (R115) and no rule
depends on it; the model has no time, so it is not represented (log entry 11). -/

namespace Sys2Proof

/-- `MAX_FIELDS`, the number of descriptor entries of the schema store (R8). -/
abbrev maxFields : Nat := 64

/-- The parameters of one implementation. -/
structure Config where
  /-- `N_CONT`, the number of container banks (R7). -/
  nCont : Nat
deriving DecidableEq, Repr

/-- `1 <= N_CONT <= 16` (R7). -/
def Config.wellFormed (c : Config) : Bool :=
  decide (1 ≤ c.nCont) && decide (c.nCont ≤ 16)

/-- DESIGN CHOICE: the implementation that `State.reset` names has one bank, the `N_CONT` that
spec/95_test_vectors.md takes "unless a row says otherwise" (log entry 1, unsafe). -/
def Config.oneBank : Config := { nCont := 1 }

end Sys2Proof
end

