-- ==== Sys2Proof/Machine/State.lean ====
section
/-! DEFINITION. Everything the spec gives the block, as plain data (spec/10_state.md), the command port
(spec/20_memory.md R35), the reasons a step can stop, and the state after reset (spec/70_reset_and_hazards.md R110). -/

namespace Sys2Proof.Machine

open Sys2Proof

/-- `CSTATE`, the configuration state machine (R16). -/
inductive CState where
  | unconfigured
  | config
  | valid
  | error
deriving DecidableEq, Repr

/-- The response codes (R98). The codes 0x6 to 0xF are never produced, so they have no constructor. -/
inductive RspCode where
  | ok
  | errIllegal
  | errState
  | errCsel
  | errNoField
  | errSchema
deriving DecidableEq, Repr

/-- A response: `RSP_CODE` and `DATA_OUT` (R62). -/
structure Response where
  code : RspCode
  dataOut : Word
deriving DecidableEq, Repr

/-- A command: the command word and its data operand, accepted together (R49). -/
structure Command where
  cmd : CmdWord
  dataIn : Word
deriving DecidableEq, Repr

/-- What the host drives on the port's input lines in one cycle (R35). -/
structure HostCycle where
  rst : Bool
  cmdValid : Bool
  cmd : CmdWord
  dataIn : Word
  rspReady : Bool
deriving DecidableEq, Repr

/-- A field descriptor, one entry of the schema store (R18). -/
structure Descriptor where
  id : Ident
  width : BitVec 7
deriving DecidableEq, Repr

/-- `SHIFT[i]` and `MASK[i]` of one field, the mask unshifted (R19). -/
structure FieldLayout where
  shift : BitVec 6
  mask : Word
deriving DecidableEq, Repr

/-- The layout table: an entry for each field index `i < FCOUNT`, in order, and `OCC` (R19). -/
structure Layout where
  fields : List FieldLayout
  occ : BitVec 7
deriving DecidableEq, Repr

/-- The state elements that can hold no value (R31). -/
inductive Element where
  | desc
  | layout
  | slot
deriving DecidableEq, Repr

/-- Why the machine stops. -/
inductive Fault where
  /-- A rule would read an element that holds no value. Raised by the accessors of Operands.lean. The spec asks
  for this fault (R31, R109, I3) and says that no run reaches it. Safe: the machine stops, picking no value. -/
  | noValue (element : Element)
deriving DecidableEq, Repr

/-- Why the model gives an instruction no meaning. -/
inductive Refusal where
  /-- Raised by `exec` for an instruction whose meaning is not written yet; no arm raises it now. Safe. -/
  | notModelled (mnemonic : String)
deriving DecidableEq, Repr

/-- The block, and the host's side of its port. -/
structure State where
  /-- The implementation's parameters; no step writes them (R7). -/
  cfg : Config
  /-- `CSTATE` (R16). -/
  cstate : CState
  /-- `WSEL`, the storage width `W = 8 << WSEL` (R17). -/
  wsel : StorageWidth
  /-- `BO` (R17). -/
  bo : ByteOrder
  /-- `FO` (R17). -/
  fo : FieldOrder
  /-- `FCOUNT`, the number of descriptor entries in use (R18). -/
  fcount : BitVec 7
  /-- `DESC[0..63]`; an entry nothing has written since reset holds no value (R18, R31). -/
  desc : Vector (Option Descriptor) maxFields
  /-- `SHIFT`, `MASK` and `OCC`; no value before a commit that passes (R19, R31). -/
  layout : Option Layout
  /-- `SLOT[c][i]`: the list of the banks, each the list of its raw slots; no slot has a value before a commit
  that passes (R21, R31). -/
  slot : List (List Word)
  /-- `E_COUNT` (R24). -/
  eCount : Bool
  /-- `E_ZERO` (R24). -/
  eZero : Bool
  /-- `E_DUP` (R24). -/
  eDup : Bool
  /-- `E_SUM` (R24). -/
  eSum : Bool
  /-- `LAST_ERR`; its reset value 0 is the code of OK (R25). -/
  lastErr : RspCode
  /-- `FAULT`, sticky (R25). -/
  fault : Bool
  /-- The response that waits to be taken: `rsp_valid`, and with it `RSP_CODE` and `DATA_OUT` (R35). -/
  rsp : Option Response
  /-- `DATA_IN` as sampled with the accepted `CMD` (R35). -/
  dataIn : Word
  /-- MODEL's own: what the host drives in the coming cycles, oldest first (R35, R48; log entry 2). -/
  host : List HostCycle
  /-- MODEL's own: the responses the host has taken since reset, oldest first (R116; log entry 9). -/
  taken : List Response
deriving DecidableEq, Repr

/-- Every state element at its reset value (R31, R110), for an implementation `cfg` and a host that will drive
`host`. `dataIn` is a line of the port, sampled anew with every command: its 0 is a DESIGN CHOICE (log entry 8). -/
def State.resetFor (cfg : Config) (host : List HostCycle) : State where
  cfg := cfg
  cstate := .unconfigured
  wsel := .w8
  bo := .big
  fo := .msbFirst
  fcount := 0
  desc := Vector.replicate maxFields none
  layout := none
  slot := []
  eCount := false
  eZero := false
  eDup := false
  eSum := false
  lastErr := .ok
  fault := false
  rsp := none
  dataIn := 0
  host := host
  taken := []

/-- The machine right after reset: the block waits for its first command (R110). DESIGN CHOICE: one bank, and a
host that drives nothing (log entries 1 and 3). -/
def State.reset : State := .resetFor .oneBank []

/-- The outcome of one command or of one step. -/
abbrev Result := Host.Outcome State Fault Refusal

end Sys2Proof.Machine
end

