-- ==== Sys2Proof/Machine/Flags.lean ====
section
/-! DEFINITION. Flags and status: the schema validation and the four violation flags (spec/10_state.md R24,
spec/40_layout.md R68), LAST_ERR and FAULT (R25, R101), and the words that show them, STATUS (R26, R97) and the
layout summary (R96). -/

namespace Sys2Proof.Machine

open Sys2Proof

/-! ### Codes -/

/-- The value of `CSTATE` (R16). -/
def CState.toBits : CState → BitVec 2
  | .unconfigured => 0#2
  | .config => 1#2
  | .valid => 2#2
  | .error => 3#2

/-- The value of `RSP_CODE` and of `LAST_ERR` (R98). -/
def RspCode.toBits : RspCode → BitVec 4
  | .ok => 0x0#4
  | .errIllegal => 0x1#4
  | .errState => 0x2#4
  | .errCsel => 0x3#4
  | .errNoField => 0x4#4
  | .errSchema => 0x5#4

/-! ### Validation (R68) -/

/-- What validation finds of a schema: its three checks and the exact width sum (R68). -/
structure Verdict where
  zero : Bool
  dup : Bool
  badSum : Bool
  sum : Nat
deriving DecidableEq, Repr

/-- The widths of a schema, in declaration order. -/
def widths (ds : List Descriptor) : List Nat := ds.map (fun d => d.width.toNat)

/-- Some two descriptors have equal identifiers. -/
def hasDup : List Ident → Bool
  | [] => false
  | id :: rest => rest.contains id || hasDup rest

/-- `validate(DESC[0..n-1], W)`; the sum is exact and does not wrap (R68). -/
def validate (ds : List Descriptor) (w : StorageWidth) : Verdict where
  zero := ds.any (fun d => d.width == 0)
  dup := hasDup (ds.map (fun d => d.id))
  badSum := (widths ds).sum != w.bits
  sum := (widths ds).sum

/-- A schema is valid when E_COUNT is 0 and no check fails (R68). -/
def passes (eCount : Bool) (v : Verdict) : Bool := !eCount && !v.zero && !v.dup && !v.badSum

/-- CFG_BEGIN clears all four violation flags (R24, R65). -/
def clearSchemaFlags (s : State) : State := { s with eCount := false, eZero := false, eDup := false, eSum := false }

/-- A failing commit sets each flag to its check's result; E_COUNT keeps the value CFG_FIELD gave it (R67). -/
def setSchemaFlags (v : Verdict) (s : State) : State := { s with eZero := v.zero, eDup := v.dup, eSum := v.badSum }

/-! ### LAST_ERR and FAULT -/

/-- What every response other than OK records (R101). -/
def recordError (e : RspCode) (s : State) : State := { s with lastErr := e, fault := true }

/-! ### The status words -/

/-- A field of a status word, put at its lowest bit. -/
def bitsAt (n : Nat) (b : BitVec n) (lo : Nat) : Word := b.setWidth 64 <<< lo

/-- A flag of a status word, put at its bit. -/
def flagAt (b : Bool) (lo : Nat) : Word := bitsAt 1 (BitVec.ofBool b) lo

/-- The STATUS word (R26, R97); its reserved bits read as 0. -/
def statusWord (s : State) : Word :=
  bitsAt 2 s.cstate.toBits 0 ||| bitsAt 2 s.wsel.toWsel 2 ||| bitsAt 1 s.bo.toBit 4 ||| bitsAt 1 s.fo.toBit 5 ||| bitsAt 7 s.fcount 6
    ||| flagAt s.eCount 13 ||| flagAt s.eZero 14 ||| flagAt s.eDup 15 ||| flagAt s.eSum 16
    ||| bitsAt 4 s.lastErr.toBits 20 ||| flagAt s.fault 24

/-- The layout summary of QUERY_LAYOUT (R96). -/
def layoutWord (occ : BitVec 7) (s : State) : Word :=
  bitsAt 7 occ 0 ||| bitsAt 7 s.fcount 7 ||| bitsAt 2 s.wsel.toWsel 14 ||| bitsAt 1 s.bo.toBit 16 ||| bitsAt 1 s.fo.toBit 17

end Sys2Proof.Machine
end

