-- ==== Sys2Proof/Machine/Operands.lean ====
section
/-! DEFINITION. The operand forms: the data operand (spec/20_memory.md R37, spec/30_encoding.md R56), the field
lookup (spec/40_layout.md R73), the bank (R51), and the reads of the elements that can hold no value
(spec/10_state.md R31): each answers `none` where a read of it would be a fault. -/

namespace Sys2Proof.Machine

open Sys2Proof

/-- `ones(n) = 2^n - 1` (R13). -/
def ones (n : Nat) : Word := BitVec.ofNat 64 (2 ^ n - 1)

/-- `trunc_n(v) = v mod 2^n`, zero-extended to 64 bits (R13). -/
def trunc (n : Nat) (v : Word) : Word := v &&& ones n

/-- `DATA_IN[W-1:0]`; the bits from `W` up are ignored (R37, R56). -/
def State.dataOperand (s : State) : Word := trunc s.wsel.bits s.dataIn

/-- The values of a list whose elements all have one. -/
def allValues {α : Type} : List (Option α) → Option (List α)
  | [] => some []
  | none :: _ => none
  | some a :: rest => (allValues rest).map (a :: ·)

/-- The first `n` entries, where there are as many. -/
def firstEntries {α : Type} (n : Nat) (xs : List α) : Option (List α) :=
  if n ≤ xs.length then some (xs.take n) else none

/-- The schema: the entries in use, `DESC[0..FCOUNT-1]`, in declaration order (R18). -/
def State.schema? (s : State) : Option (List Descriptor) :=
  (firstEntries s.fcount.toNat s.desc.toList).bind allValues

/-- `SHIFT[i]` and `MASK[i]` for each `i < FCOUNT` (R19). -/
def State.fieldLayouts? (s : State) : Option (List FieldLayout) :=
  s.layout.bind (fun l => firstEntries s.fcount.toNat l.fields)

/-- `SLOT[c][i]` for each `i < FCOUNT`: the raw slots of one bank (R21). -/
def State.bank? (s : State) (c : Nat) : Option (List Word) :=
  s.slot[c]?.bind (firstEntries s.fcount.toNat)

/-- `idx(id)`: the index of the descriptor in use whose identifier is `id` (R73). A schema in use has at most one;
in a schema that validation would reject, which no container command ever sees, it is the first (log entry 7). -/
def fieldIndex (ds : List Descriptor) (id : Ident) : Option Nat := ds.findIdx? (fun d => d.id == id)

end Sys2Proof.Machine
end

