-- ==== Sys2Proof/Machine/Ops.lean ====
section
/-! DEFINITION. The operations the commands share: the response and the error response, which is this block's
whole exception mechanism (spec/60_exceptions.md R101, R105: no trap, so no entry and no return; the way back
from ERROR is CFG_BEGIN, the way back from VALID is reset), the checks in their order (R99, R100), the byte-order
transform (spec/20_memory.md R42), and the reads and writes of banks and layout. -/

namespace Sys2Proof.Machine

open Sys2Proof

/-! ### Responses -/

/-- `respond(code, data)`: the response now waits on the port (R13, R35). -/
def respond (code : RspCode) (data : Word) (s : State) : Result :=
  .next { s with rsp := some { code := code, dataOut := data } }

/-- `raise <Err>`: LAST_ERR and FAULT are recorded, DATA_OUT is 0, nothing else changes (R13, R101). -/
def raise (e : RspCode) (s : State) : Result := respond e 0 (recordError e s)

/-! ### The checks, in the order of R100 (decoding is the first, in Port.lean) -/

/-- NOP and READ_STATUS are allowed in every CSTATE (R99). -/
def inAnyState (_ : CState) : Bool := true

/-- CFG_BEGIN is allowed in every CSTATE but VALID (R99). -/
def inStateToBegin : CState → Bool
  | .unconfigured => true
  | .config => true
  | .valid => false
  | .error => true

/-- CFG_FIELD and CFG_COMMIT are allowed in CONFIG (R99). -/
def inStateToLoad : CState → Bool
  | .unconfigured => false
  | .config => true
  | .valid => false
  | .error => false

/-- Container and query commands are allowed in VALID (R99). -/
def inStateToUse : CState → Bool
  | .unconfigured => false
  | .config => false
  | .valid => true
  | .error => false

/-- Check 2: a command in the wrong state gets ERR_STATE (R99, R100). -/
def requireState (allowed : CState → Bool) (s : State) (body : Result) : Result :=
  if allowed s.cstate then body else raise .errState s

/-- Check 3: `CSEL >= N_CONT` gets ERR_CSEL (R51, R100). -/
def requireBank (csel : BankSel) (s : State) (body : Result) : Result :=
  if csel.toNat < s.cfg.nCont then body else raise .errCsel s

/-- Check 4: an identifier that names no field gets ERR_NO_FIELD; otherwise the command goes on with `idx(ID)`
(R73, R100). -/
def requireField (id : Ident) (s : State) (body : Nat → Result) : Result :=
  match s.schema? with
  | none => .fault (.noValue .desc)
  | some ds =>
    match fieldIndex ds id with
    | none => raise .errNoField s
    | some i => body i

/-! ### Reads of the layout table and of a bank -/

/-- The layout table, one entry a field in use. -/
def withLayout (s : State) (body : List FieldLayout → Result) : Result :=
  match s.fieldLayouts? with
  | none => .fault (.noValue .layout)
  | some fs => body fs

/-- The layout of one field. -/
def withFieldLayout (i : Nat) (s : State) (body : FieldLayout → Result) : Result :=
  withLayout s fun fs =>
    match fs[i]? with
    | none => .fault (.noValue .layout)
    | some f => body f

/-- The raw slots of one bank. -/
def withBank (csel : BankSel) (s : State) (body : List Word → Result) : Result :=
  match s.bank? csel.toNat with
  | none => .fault (.noValue .slot)
  | some b => body b

/-- One raw slot. -/
def withSlot (csel : BankSel) (i : Nat) (s : State) (body : Word → Result) : Result :=
  withBank csel s fun b =>
    match b[i]? with
    | none => .fault (.noValue .slot)
    | some v => body v

/-- The bank's slots become `b`; no other bank changes (R23). -/
def setBank (csel : BankSel) (b : List Word) (s : State) : State := { s with slot := s.slot.set csel.toNat b }

/-! ### The datapath -/

/-- The observed value of a slot (R22). -/
def observed (f : FieldLayout) (v : Word) : Word := v &&& f.mask

/-- `MASK[i] << SHIFT[i]`, the word-local mask (R71). -/
def wordMask (f : FieldLayout) : Word := f.mask <<< f.shift.toNat

/-- One field's observed value in its place in the canonical word (R82). -/
def project (f : FieldLayout) (v : Word) : Word := observed f v <<< f.shift.toNat

/-- One field's value out of a canonical word (R79). -/
def takeField (r : Word) (f : FieldLayout) : Word := (r &&& wordMask f) >>> f.shift.toNat

/-- `OR` of a list of words; 0 of none (R13). -/
def orAll (ws : List Word) : Word := ws.foldr (fun a b => a ||| b) 0

/-- The canonical word of a bank: the OR of every field's projection (R83). -/
def packWord (fs : List FieldLayout) (b : List Word) : Word := orAll (List.zipWith project fs b)

/-- The slots a canonical word unpacks into (R79). -/
def unpackWord (fs : List FieldLayout) (r : Word) : List Word := fs.map (takeField r)

/-- Byte `k` of an `n`-byte word, moved to byte `n-1-k` (R42). -/
def moveByte (n : Nat) (v : Word) (k : Nat) : Word := ((v >>> (8 * k)) &&& 0xFF#64) <<< (8 * (n - 1 - k))

/-- `T` in LITTLE order: the `n` bytes in reverse (R42). -/
def reverseBytes (n : Nat) (v : Word) : Word := orAll ((List.range n).map (moveByte n v))

/-- The byte-order transform `T` of a `W`-bit word, `N = W / 8` (R42). -/
def transform (bo : ByteOrder) (w : StorageWidth) (v : Word) : Word :=
  match bo with
  | .big => v
  | .little => reverseBytes (w.bits / 8) v

/-- `T` at the configured BO and W (R42). -/
def State.transform (s : State) (v : Word) : Word := Machine.transform s.bo s.wsel v

end Sys2Proof.Machine
end

