-- ==== Sys2Proof/Machine/Container.lean ====
section
/-! DEFINITION. The field container commands (spec/41_container.md): CLEAR, UNPACK, WRITE_FIELD, READ_FIELD,
EXTRACT, SERIALIZE. Their checks run in the order of R77 and R100. Writes store verbatim, every observation is
masked (R22, R114), and no read writes a slot (spec/90_conflicts.md C6). -/

namespace Sys2Proof.Machine

open Sys2Proof

/-- CLEAR: the bank is empty again, every slot 0 (R78). -/
def execClear (csel : BankSel) (s : State) : Result :=
  requireState inStateToUse s <| requireBank csel s <| withBank csel s fun b =>
    respond .ok 0 (setBank csel (b.map fun _ => 0) s)

/-- UNPACK: every slot of the bank from the external word on DATA_IN (R79). -/
def execUnpack (csel : BankSel) (s : State) : Result :=
  requireState inStateToUse s <| requireBank csel s <| withBank csel s fun _ => withLayout s fun fs =>
    respond .ok 0 (setBank csel (unpackWord fs (s.transform s.dataOperand)) s)

/-- WRITE_FIELD: the slot takes `DATA_IN[W-1:0]` verbatim, unmasked and untransformed (R80). -/
def execWriteField (csel : BankSel) (id : Ident) (s : State) : Result :=
  requireState inStateToUse s <| requireBank csel s <| requireField id s fun i => withBank csel s fun b =>
    respond .ok 0 (setBank csel (b.set i s.dataOperand) s)

/-- READ_FIELD: the observed value, in field position (R81). -/
def execReadField (csel : BankSel) (id : Ident) (s : State) : Result :=
  requireState inStateToUse s <| requireBank csel s <| requireField id s fun i =>
    withSlot csel i s fun v => withFieldLayout i s fun f =>
      respond .ok (observed f v) s

/-- EXTRACT: one field's observed value in word position, every other bit 0, byte order applied (R82). -/
def execExtract (csel : BankSel) (id : Ident) (s : State) : Result :=
  requireState inStateToUse s <| requireBank csel s <| requireField id s fun i =>
    withSlot csel i s fun v => withFieldLayout i s fun f =>
      respond .ok (s.transform (project f v)) s

/-- SERIALIZE: the packed word, byte order applied (R83). -/
def execSerialize (csel : BankSel) (s : State) : Result :=
  requireState inStateToUse s <| requireBank csel s <| withBank csel s fun b => withLayout s fun fs =>
    respond .ok (s.transform (packWord fs b)) s

end Sys2Proof.Machine
end

