-- ==== Sys2Proof/Machine/Query.lean ====
section
/-! DEFINITION. The no-op, the layout queries and the status (spec/42_query.md), and the two reserved operations
(spec/30_encoding.md R59). -/

namespace Sys2Proof.Machine

open Sys2Proof

/-- NOP, legal in every CSTATE (R93). -/
def execNop (s : State) : Result := requireState inAnyState s <| respond .ok 0 s

/-- QUERY_SHIFT: `SHIFT[idx(ID)]` (R94). -/
def execQueryShift (id : Ident) (s : State) : Result :=
  requireState inStateToUse s <| requireField id s fun i => withFieldLayout i s fun f =>
    respond .ok (f.shift.setWidth 64) s

/-- QUERY_MASK: `MASK[idx(ID)]`, unshifted (R95). -/
def execQueryMask (id : Ident) (s : State) : Result :=
  requireState inStateToUse s <| requireField id s fun i => withFieldLayout i s fun f =>
    respond .ok f.mask s

/-- QUERY_LAYOUT: the layout summary (R96). -/
def execQueryLayout (s : State) : Result :=
  requireState inStateToUse s <|
    match s.layout with
    | none => .fault (.noValue .layout)
    | some l => respond .ok (layoutWord l.occ s) s

/-- READ_STATUS, legal in every CSTATE; reading clears nothing (R97). -/
def execReadStatus (s : State) : Result := requireState inAnyState s <| respond .ok (statusWord s) s

/-- RESERVED_OP_E: ERR_ILLEGAL whatever the other bits, in every CSTATE (R59, R100). -/
def execReservedOpE (_cmd : CmdWord) (s : State) : Result := raise .errIllegal s

/-- RESERVED_OP_F: ERR_ILLEGAL whatever the other bits, in every CSTATE (R59, R100). -/
def execReservedOpF (_cmd : CmdWord) (s : State) : Result := raise .errIllegal s

end Sys2Proof.Machine
end

