-- ==== Sys2Proof/Machine/Schema.lean ====
section
/-! DEFINITION. Schema loading and the layout decoder (spec/40_layout.md): CFG_BEGIN, CFG_FIELD, CFG_COMMIT. -/

namespace Sys2Proof.Machine

open Sys2Proof

/-! ### The layout algorithm -/

/-- `SHIFT[i]` of a schema with widths `ws`: the widths declared after the field in MSB_FIRST order (R69), the
widths declared before it in LSB_FIRST order (R70). -/
def shiftOf (fo : FieldOrder) (ws : List Nat) (i : Nat) : Nat :=
  match fo with
  | .msbFirst => (ws.drop (i + 1)).sum
  | .lsbFirst => (ws.take i).sum

/-- `SHIFT[i]` and `MASK[i] = ones(WIDTH)` for each field (R69 to R71). -/
def fieldLayoutsOf (fo : FieldOrder) (ws : List Nat) : List FieldLayout :=
  ws.mapIdx fun i w => { shift := BitVec.ofNat 6 (shiftOf fo ws i), mask := ones w }

/-- The layout table of a schema (R67, R72). -/
def layoutOf (fo : FieldOrder) (ds : List Descriptor) : Layout where
  fields := fieldLayoutsOf fo (widths ds)
  occ := BitVec.ofNat 7 (widths ds).sum

/-! ### The steps of the commands -/

/-- Store a descriptor at `DESC[FCOUNT]` and count it; a full store takes none and sets E_COUNT (R66). -/
def appendDescriptor (d : Descriptor) (s : State) : State :=
  if s.fcount.toNat < maxFields then
    { s with desc := s.desc.setIfInBounds s.fcount.toNat (some d), fcount := s.fcount + 1 }
  else
    { s with eCount := true }

/-- Containers "Created ... empty (all fields zero)": every bank, one zero slot a field (R67). -/
def emptyBanks (s : State) : List (List Word) := List.replicate s.cfg.nCont (List.replicate s.fcount.toNat 0)

/-- What a commit that passes writes (R67). -/
def commitSchema (ds : List Descriptor) (s : State) : State :=
  { s with layout := some (layoutOf s.fo ds), slot := emptyBanks s, cstate := .valid }

/-- What a commit that fails writes, beside the error record: no layout, no containers (R67). -/
def rejectSchema (v : Verdict) (s : State) : State := { setSchemaFlags v s with cstate := .error }

/-! ### The commands -/

/-- CFG_BEGIN: start a new schema definition (R65). The old DESC entries keep their bits. -/
def execCfgBegin (w : StorageWidth) (bo : ByteOrder) (fo : FieldOrder) (s : State) : Result :=
  requireState inStateToBegin s <|
    respond .ok 0 { clearSchemaFlags s with wsel := w, bo := bo, fo := fo, fcount := 0, cstate := .config }

/-- CFG_FIELD: append one field descriptor; every width and identifier is taken (R66). -/
def execCfgField (id : Ident) (width : BitVec 7) (s : State) : Result :=
  requireState inStateToLoad s <|
    respond .ok 0 (appendDescriptor { id := id, width := width } s)

/-- CFG_COMMIT: validate; on success derive the layout, create every container empty and lock the schema (R67). -/
def execCfgCommit (s : State) : Result :=
  requireState inStateToLoad s <|
    match s.schema? with
    | none => .fault (.noValue .desc)
    | some ds =>
      if passes s.eCount (validate ds s.wsel) then respond .ok 0 (commitSchema ds s)
      else raise .errSchema (rejectSchema (validate ds s.wsel) s)

end Sys2Proof.Machine
end

