-- ==== Sys2Proof/Machine/Dispatch.lean ====
section
/-! DEFINITION. The meaning of each command, by constructor. -/

namespace Sys2Proof.Machine

open Sys2Proof

def exec (i : Instr) (s : State) : Host.Outcome State Fault Refusal :=
  match i with
  | .nop => Sys2Proof.Machine.execNop s
  | .cfgBegin w bo fo => Sys2Proof.Machine.execCfgBegin w bo fo s
  | .cfgField id width => Sys2Proof.Machine.execCfgField id width s
  | .cfgCommit => Sys2Proof.Machine.execCfgCommit s
  | .clear csel => Sys2Proof.Machine.execClear csel s
  | .unpack csel => Sys2Proof.Machine.execUnpack csel s
  | .writeField csel id => Sys2Proof.Machine.execWriteField csel id s
  | .readField csel id => Sys2Proof.Machine.execReadField csel id s
  | .extract csel id => Sys2Proof.Machine.execExtract csel id s
  | .serialize csel => Sys2Proof.Machine.execSerialize csel s
  | .queryShift id => Sys2Proof.Machine.execQueryShift id s
  | .queryMask id => Sys2Proof.Machine.execQueryMask id s
  | .queryLayout => Sys2Proof.Machine.execQueryLayout s
  | .readStatus => Sys2Proof.Machine.execReadStatus s
  | .reservedOpE cmd => Sys2Proof.Machine.execReservedOpE cmd s
  | .reservedOpF cmd => Sys2Proof.Machine.execReservedOpF cmd s

end Sys2Proof.Machine
end

