-- ==== Sys2Proof/Machine/Port.lean ====
section
/-! DEFINITION. The command port (spec/20_memory.md R35, R36) and reset (spec/70_reset_and_hazards.md R110, R111).
A step is one cycle of the port: it samples what the host drives. An accepted command is executed whole in its
cycle, as one atomic step (R36), and its response then waits until the host takes it (log entry 2). -/

namespace Sys2Proof.Machine

open Sys2Proof

/-! ### The port's output lines (R35) -/

/-- `cmd_ready`, in a cycle without `rst`: the block accepts no new command while a response is waiting to be taken
(R35). DESIGN CHOICE: the spec gives the line no level in a cycle with `rst`; this value does not look at `rst`, so it
can be true in such a cycle, in which `portCycle` accepts no command (R111; log entry 10). -/
def State.cmdReady (s : State) : Bool := s.rsp.isNone

/-- `rsp_valid`, in a cycle without `rst` (R35). DESIGN CHOICE: the spec gives the line no level in a cycle with `rst`;
this value does not look at `rst`, so it can be true in such a cycle, in which `portCycle` discards the response and
no host takes it (R111; log entry 10). -/
def State.rspValid (s : State) : Bool := s.rsp.isSome

/-! ### What a cycle can do -/

/-- Accept a command: decode, and execute it; a word of no row gets ERR_ILLEGAL (R58, R100). `DATA_IN` is sampled
with `CMD`. The meaning of the instructions is `ex`. -/
def acceptCommand (ex : Instr → State → Result) (c : Command) (s : State) : Result :=
  match decode c.cmd with
  | .ok i => ex i { s with dataIn := c.dataIn }
  | .error _ => raise .errIllegal { s with dataIn := c.dataIn }

/-- The host takes the waiting response (R35). -/
def takeResponse (r : Response) (s : State) : State := { s with rsp := none, taken := s.taken ++ [r] }

/-- `rst`: every element at its reset value; a response not yet taken is discarded (R110, R111). The
implementation stays what it is, and so does what the host will drive. -/
def resetBlock (s : State) : State := .resetFor s.cfg s.host

/-- One cycle of the port in which the host drives `h`. Reset comes first, and no command is accepted during it
(R111); a waiting response is taken or goes on waiting, and no command is accepted meanwhile (R35); a command
that is offered to a block that is ready is accepted; else the block idles and keeps its state (R108). -/
def portCycle (ex : Instr → State → Result) (h : HostCycle) (s : State) : Result :=
  if h.rst then .next (resetBlock s)
  else
    match s.rsp with
    | some r => if h.rspReady then .next (takeResponse r s) else .next s
    | none => if h.cmdValid then acceptCommand ex { cmd := h.cmd, dataIn := h.dataIn } s else .next s

/-- The next step of the block: the host's next cycle, or idling when the host drives nothing (log entry 3). -/
def portStep (ex : Instr → State → Result) (s : State) : Result :=
  match s.host with
  | [] => .next s
  | h :: rest => portCycle ex h { s with host := rest }

/-! ### Cycles of a host -/

/-- The host offers a command. -/
def HostCycle.offer (c : Command) : HostCycle :=
  { rst := false, cmdValid := true, cmd := c.cmd, dataIn := c.dataIn, rspReady := false }

/-- The host takes a response. -/
def HostCycle.take : HostCycle := { rst := false, cmdValid := false, cmd := 0, dataIn := 0, rspReady := true }

/-- The host asserts `rst`. -/
def HostCycle.reset : HostCycle := { rst := true, cmdValid := false, cmd := 0, dataIn := 0, rspReady := false }

/-- A host that issues commands one after another, taking each response before the next offer. -/
def hostOf (cs : List Command) : List HostCycle := cs.flatMap fun c => [.offer c, .take]

end Sys2Proof.Machine
end

