-- ==== Sys2Proof/Machine/Step.lean ====
section
/-! DEFINITION. The step of the block: one cycle of its port, with the commands' meanings (spec/00_scope.md R14,
spec/20_memory.md R36). -/

namespace Sys2Proof.Machine

open Sys2Proof

/-- One step. -/
def step (s : State) : Host.Outcome State Fault Refusal := portStep exec s

/-- The state whose very next step accepts and runs the command with bits `w`, numbered as the opcode table
numbers them (`CMD` in bits 31..0, `DATA_IN` in bits 95..32): the host offers it in its next cycle, and no earlier
response waits, which would keep the block from accepting it (R35; log entry 3). -/
def State.withFetchWord (s : State) (nbits w : Nat) : State :=
  { s with host := .offer { cmd := tableCmd nbits w, dataIn := tableData nbits w } :: s.host, rsp := none }

end Sys2Proof.Machine
end

