-- ==== Sys2Proof/Machine/Assembler.lean ====
section
/-! DEFINITION. The assembly language (spec/30_encoding.md R63, R64): one line, one command. A line's numbers are
plain numbers here, checked against their ranges; what the spec does not say of the text itself (white space,
the spelling of a number) is in log entry 12. -/

namespace Sys2Proof.Machine

open Sys2Proof

/-! ### Lines -/

/-- A line of the assembly language, by its syntax (R63). -/
inductive AsmLine where
  /-- `nop` -/
  | nop
  /-- `cfg.begin w<8|16|32|64>, <big|little>, <msb|lsb>` -/
  | cfgBegin (w : Nat) (bo : ByteOrder) (fo : FieldOrder)
  /-- `cfg.field id=<k>, width=<n>` -/
  | cfgField (id width : Nat)
  /-- `cfg.commit` -/
  | cfgCommit
  /-- `clear c<n>` -/
  | clear (c : Nat)
  /-- `unpack c<n>, <word>` -/
  | unpack (c data : Nat)
  /-- `wr c<n>, id=<k>, <value>` -/
  | wr (c id data : Nat)
  /-- `rd c<n>, id=<k>` -/
  | rd (c id : Nat)
  /-- `ext c<n>, id=<k>` -/
  | ext (c id : Nat)
  /-- `ser c<n>` -/
  | ser (c : Nat)
  /-- `q.shift id=<k>` -/
  | qShift (id : Nat)
  /-- `q.mask id=<k>` -/
  | qMask (id : Nat)
  /-- `q.layout` -/
  | qLayout
  /-- `rd.status` -/
  | rdStatus
  /-- `.word <cmd>, <data>`: a raw command word and data operand -/
  | word (cmd data : Nat)
deriving DecidableEq, Repr

/-- The storage width a `w<n>` operand names. -/
def widthOfBits (n : Nat) : Option StorageWidth :=
  if n = 8 then some .w8 else if n = 16 then some .w16 else if n = 32 then some .w32 else if n = 64 then some .w64
  else none

/-- `c<n>`: a 4-bit bank number (R51). -/
def bankInRange (c : Nat) : Bool := decide (c < 16)

/-- `id=<k>`, k in 0..255 (R63). -/
def idInRange (id : Nat) : Bool := decide (id < 256)

/-- `width=<n>`, n in 0..127 (R63). -/
def widthInRange (n : Nat) : Bool := decide (n < 128)

/-- A DATA_IN operand fits its 64 bits. -/
def dataInRange (d : Nat) : Bool := decide (d < 2 ^ 64)

/-- Every number of the line is one the form allows (R63). -/
def AsmLine.wellFormed : AsmLine → Bool
  | .nop => true
  | .cfgBegin w _ _ => (widthOfBits w).isSome
  | .cfgField id width => idInRange id && widthInRange width
  | .cfgCommit => true
  | .clear c => bankInRange c
  | .unpack c data => bankInRange c && dataInRange data
  | .wr c id data => bankInRange c && idInRange id && dataInRange data
  | .rd c id => bankInRange c && idInRange id
  | .ext c id => bankInRange c && idInRange id
  | .ser c => bankInRange c
  | .qShift id => idInRange id
  | .qMask id => idInRange id
  | .qLayout => true
  | .rdStatus => true
  | .word cmd data => decide (cmd < 2 ^ 32) && dataInRange data

/-- The command word of a line: the encoding of the one command its mnemonic names (R63, R64). -/
def AsmLine.cmdWord : AsmLine → CmdWord
  | .nop => encode .nop
  | .cfgBegin w bo fo => encode (.cfgBegin ((widthOfBits w).getD .w8) bo fo)
  | .cfgField id width => encode (.cfgField (.ofNat 8 id) (.ofNat 7 width))
  | .cfgCommit => encode .cfgCommit
  | .clear c => encode (.clear (.ofNat 4 c))
  | .unpack c _ => encode (.unpack (.ofNat 4 c))
  | .wr c id _ => encode (.writeField (.ofNat 4 c) (.ofNat 8 id))
  | .rd c id => encode (.readField (.ofNat 4 c) (.ofNat 8 id))
  | .ext c id => encode (.extract (.ofNat 4 c) (.ofNat 8 id))
  | .ser c => encode (.serialize (.ofNat 4 c))
  | .qShift id => encode (.queryShift (.ofNat 8 id))
  | .qMask id => encode (.queryMask (.ofNat 8 id))
  | .qLayout => encode .queryLayout
  | .rdStatus => encode .readStatus
  | .word cmd _ => .ofNat 32 cmd

/-- The data operand of a line: 0 for a form that has none (R63). -/
def AsmLine.dataWord : AsmLine → Word
  | .unpack _ data => .ofNat 64 data
  | .wr _ _ data => .ofNat 64 data
  | .word _ data => .ofNat 64 data
  | .nop | .cfgBegin _ _ _ | .cfgField _ _ | .cfgCommit | .clear _ | .rd _ _ | .ext _ _ | .ser _ | .qShift _
  | .qMask _ | .qLayout | .rdStatus => 0

/-- Assemble a line: exactly one command, or an assembly error (R63, R64). -/
def assemble (l : AsmLine) : Option Command :=
  if l.wellFormed then some { cmd := l.cmdWord, dataIn := l.dataWord } else none

/-! ### Text -/

/-- The pieces of a line of text. -/
inductive Token where
  | word (cs : List Char)
  | comma
  | equals
deriving DecidableEq, Repr

/-- An operand of a line: `w8`, `c0`, `0xBA` stand plain, `id=1` is keyed. -/
inductive Operand where
  | plain (cs : List Char)
  | keyed (key value : List Char)
deriving DecidableEq, Repr

/-- End the word read so far (held last letter first). -/
def endWord (acc : List Char) : List Token := if acc.isEmpty then [] else [.word acc.reverse]

/-- Cut a line into tokens; `;` starts a comment (R63). DESIGN CHOICE: spaces and tabs separate tokens and may stand
on either side of `,` and `=` (log entry 12). -/
def lexFrom : List Char → List Char → List Token
  | acc, [] => endWord acc
  | acc, c :: rest =>
    if c = ';' then endWord acc
    else if c = ',' then endWord acc ++ .comma :: lexFrom [] rest
    else if c = '=' then endWord acc ++ .equals :: lexFrom [] rest
    else if c = ' ' || c = '\t' then endWord acc ++ lexFrom [] rest
    else lexFrom (c :: acc) rest

/-- The value of a digit. -/
def digitValue (c : Char) : Nat :=
  let n := c.toNat
  if 48 ≤ n && n ≤ 57 then n - 48
  else if 97 ≤ n && n ≤ 102 then n - 87
  else if 65 ≤ n && n ≤ 70 then n - 55
  else 16

/-- A number's digits in a base. DESIGN CHOICE: a `_` is no digit, so a number with R13's optional separators is an
assembly error; R63 does not say whether a number of the text may carry them (log entry 12). -/
def readDigits (base : Nat) : Nat → List Char → Option Nat
  | acc, [] => some acc
  | acc, c :: rest => if digitValue c < base then readDigits base (base * acc + digitValue c) rest else none

/-- At least one digit. -/
def readNumberIn (base : Nat) (cs : List Char) : Option Nat := if cs.isEmpty then none else readDigits base 0 cs

/-- A number: decimal, `0x` hexadecimal or `0b` binary (R63). DESIGN CHOICE: the prefix is in lower case and leading
zeros are taken (log entry 12). -/
def readNumber : List Char → Option Nat
  | '0' :: 'x' :: cs => readNumberIn 16 cs
  | '0' :: 'b' :: cs => readNumberIn 2 cs
  | cs => readNumberIn 10 cs

/-- The operands after a mnemonic, separated by commas (R63). -/
def readOperands : List Token → Option (List Operand)
  | [] => some []
  | [.word w] => some [.plain w]
  | [.word k, .equals, .word v] => some [.keyed k v]
  | .word w :: .comma :: t :: rest => (readOperands (t :: rest)).map (.plain w :: ·)
  | .word k :: .equals :: .word v :: .comma :: t :: rest => (readOperands (t :: rest)).map (.keyed k v :: ·)
  | _ => none

/-- `c<n>` (R63). DESIGN CHOICE: any numeral of the value is taken, as in `c0x1` (log entry 12). -/
def readBank : Operand → Option Nat
  | .plain ('c' :: cs) => readNumber cs
  | _ => none

/-- `w<8|16|32|64>` (R63). DESIGN CHOICE: any numeral of one of the four values is taken, as in `w0x10` or `w08`,
where R63 shows the four decimal spellings only (log entry 12). -/
def readWidth : Operand → Option Nat
  | .plain ('w' :: cs) => readNumber cs
  | _ => none

/-- A plain number (R63). -/
def readPlain : Operand → Option Nat
  | .plain cs => readNumber cs
  | .keyed _ _ => none

/-- `<key>=<n>` (R63). -/
def readKeyed (key : List Char) : Operand → Option Nat
  | .plain _ => none
  | .keyed k v => if k = key then readNumber v else none

/-- `id=<k>`. -/
def readId : Operand → Option Nat := readKeyed ['i', 'd']

/-- `big` or `little`. -/
def readByteOrder (o : Operand) : Option ByteOrder :=
  if o = .plain ['b', 'i', 'g'] then some .big
  else if o = .plain ['l', 'i', 't', 't', 'l', 'e'] then some .little
  else none

/-- `msb` or `lsb`. -/
def readFieldOrder (o : Operand) : Option FieldOrder :=
  if o = .plain ['m', 's', 'b'] then some .msbFirst
  else if o = .plain ['l', 's', 'b'] then some .lsbFirst
  else none

/-- One line form with its operands; a missing or surplus operand is an assembly error (R63). -/
def readForm (mnemonic : List Char) (ops : List Operand) : Option AsmLine :=
  match ops with
  | [] =>
    if mnemonic = "nop".toList then some .nop
    else if mnemonic = "cfg.commit".toList then some .cfgCommit
    else if mnemonic = "q.layout".toList then some .qLayout
    else if mnemonic = "rd.status".toList then some .rdStatus
    else none
  | [a] =>
    if mnemonic = "clear".toList then (readBank a).map .clear
    else if mnemonic = "ser".toList then (readBank a).map .ser
    else if mnemonic = "q.shift".toList then (readId a).map .qShift
    else if mnemonic = "q.mask".toList then (readId a).map .qMask
    else none
  | [a, b] =>
    if mnemonic = "cfg.field".toList then
      (readId a).bind fun id => (readKeyed "width".toList b).map fun n => .cfgField id n
    else if mnemonic = "unpack".toList then (readBank a).bind fun c => (readPlain b).map fun d => .unpack c d
    else if mnemonic = "rd".toList then (readBank a).bind fun c => (readId b).map fun id => .rd c id
    else if mnemonic = "ext".toList then (readBank a).bind fun c => (readId b).map fun id => .ext c id
    else if mnemonic = ".word".toList then (readPlain a).bind fun w => (readPlain b).map fun d => .word w d
    else none
  | [a, b, c] =>
    if mnemonic = "cfg.begin".toList then
      (readWidth a).bind fun w => (readByteOrder b).bind fun bo => (readFieldOrder c).map fun fo => .cfgBegin w bo fo
    else if mnemonic = "wr".toList then
      (readBank a).bind fun n => (readId b).bind fun id => (readPlain c).map fun d => .wr n id d
    else none
  | _ => none

/-- A line of text with a command on it. -/
def readLine (text : List Char) : Option AsmLine :=
  match lexFrom [] text with
  | .word m :: rest => (readOperands rest).bind (readForm m)
  | _ => none

/-- From a line's text to its command: `none` is an assembly error (R63). -/
def assembleText (text : List Char) : Option Command := (readLine text).bind assemble

/-- A program: one command a line; a line with nothing but white space and a comment holds none. -/
def assembleProgram : List (List Char) → Option (List Command)
  | [] => some []
  | line :: rest =>
    if (lexFrom [] line).isEmpty then assembleProgram rest
    else (assembleText line).bind fun c => (assembleProgram rest).map (c :: ·)

end Sys2Proof.Machine
end

