-- ==== Sys2Proof/Safety.lean ====
section
/-! DEFINITION. What counts as a safe run: the invariant of the block, the end and the success of a run
(spec/70_reset_and_hazards.md R116), and the mask-on-write block that spec/41_container.md R84 compares this one
with. -/

namespace Sys2Proof.Machine

open Sys2Proof

/-! ### The invariant -/

/-- The responses given since reset, oldest first: those taken and the one that waits. -/
def State.responses (s : State) : List Response := s.taken ++ s.rsp.toList

/-- The codes other than OK among some responses, oldest first. -/
def errorCodes (rs : List Response) : List RspCode := (rs.map (fun r => r.code)).filter (fun c => c != .ok)

/-- `1 <= N_CONT <= 16` (R7). -/
abbrev State.ParamsOk (s : State) : Prop := s.cfg.wellFormed = true

/-- At most 64 entries are in use, and each of them holds a value (R18). -/
abbrev State.StoreOk (s : State) : Prop := s.fcount.toNat ≤ maxFields ∧ s.schema?.isSome = true

/-- In VALID the schema in use has passed validation, and the layout is the one derived from it (R19, R76). -/
abbrev State.LayoutOk (s : State) : Prop :=
  s.cstate = .valid →
    s.schema?.any (fun ds => passes s.eCount (validate ds s.wsel)) = true ∧ s.layout = s.schema?.map (layoutOf s.fo)

/-- In VALID every bank exists, with one slot a field, each of at most `W` bits (R21). -/
abbrev State.SlotsOk (s : State) : Prop :=
  s.cstate = .valid →
    s.slot.length = s.cfg.nCont ∧ ∀ b ∈ s.slot, b.length = s.fcount.toNat ∧ ∀ v ∈ b, trunc s.wsel.bits v = v

/-- Outside VALID neither the layout nor a slot has a value (R19, R21, R31). -/
abbrev State.AbsentOk (s : State) : Prop := s.cstate ≠ .valid → s.layout = none ∧ s.slot = []

/-- The violation flags record what the most recent validation found: none but in ERROR, where they are the
checks' results and at least one of the four is set; E_COUNT is set only of a full store (R24, R66, R67). -/
abbrev State.FlagsOk (s : State) : Prop :=
  (s.cstate ≠ .error → s.eZero = false ∧ s.eDup = false ∧ s.eSum = false) ∧
  (s.cstate = .error → s.schema?.any (fun ds =>
    s.eZero == (validate ds s.wsel).zero && s.eDup == (validate ds s.wsel).dup &&
    s.eSum == (validate ds s.wsel).badSum && !passes s.eCount (validate ds s.wsel)) = true) ∧
  (s.cstate = .unconfigured → s.fcount = 0 ∧ s.eCount = false) ∧
  (s.eCount = true → s.fcount.toNat = maxFields)

/-- LAST_ERR is the code of the most recent response other than OK, FAULT tells whether there was one, and an
error response carries no data (R25, R62). -/
abbrev State.ErrorsOk (s : State) : Prop :=
  s.fault = (errorCodes s.responses != []) ∧ s.lastErr = (errorCodes s.responses).getLast?.getD .ok ∧
  ∀ r ∈ s.responses, r.code ≠ .ok → r.dataOut = 0

/-- The invariant of the block. -/
abbrev State.Inv (s : State) : Prop :=
  s.ParamsOk ∧ s.StoreOk ∧ s.LayoutOk ∧ s.SlotsOk ∧ s.AbsentOk ∧ s.FlagsOk ∧ s.ErrorsOk

/-! ### What a statement names -/

/-- Field `i` of the schema in use is `d` (R18). -/
abbrev State.FieldAt (s : State) (i : Nat) (d : Descriptor) : Prop := s.schema?.bind (fun ds => ds[i]?) = some d

/-- The layout of field `i` is `f` (R19). -/
abbrev State.LayoutAt (s : State) (i : Nat) (f : FieldLayout) : Prop := s.layout.bind (fun l => l.fields[i]?) = some f

/-- `SLOT[c][i]`, where it has a value (R21). -/
def State.rawSlot (s : State) (c i : Nat) : Option Word := s.slot[c]?.bind (fun b => b[i]?)

/-- `DESC[j].WIDTH` of a schema; 0 beyond its end. -/
def widthAt (ds : List Descriptor) (j : Nat) : Nat := (ds[j]?.map (fun d => d.width.toNat)).getD 0

/-- The invariant holds, a layout is in use, and `csel` names a bank that exists: what a container command asks
of the state (R77). -/
abbrev State.Usable (s : State) (csel : BankSel) : Prop :=
  s.Inv ∧ s.cstate = .valid ∧ csel.toNat < s.cfg.nCont

/-- `s` after a response and nothing else. -/
def State.answered (s : State) (code : RspCode) (data : Word) : State :=
  { s with rsp := some { code := code, dataOut := data } }

/-- `s` after an error response: exactly the effects of R101. -/
def State.erred (s : State) (e : RspCode) : State :=
  { s with lastErr := e, fault := true, rsp := some { code := e, dataOut := 0 } }

/-- The table of R99, command by command; a reserved operation is illegal in every state and has no row there. -/
def allowedStates : Instr → List CState
  | .nop | .readStatus => [.unconfigured, .config, .valid, .error]
  | .cfgBegin _ _ _ => [.unconfigured, .config, .error]
  | .cfgField _ _ | .cfgCommit => [.config]
  | .clear _ | .unpack _ | .writeField _ _ | .readField _ _ | .extract _ _ | .serialize _ => [.valid]
  | .queryShift _ | .queryMask _ | .queryLayout => [.valid]
  | .reservedOpE _ | .reservedOpF _ => []

/-- The command is one of the two reserved operations (R59). -/
def isReserved : Instr → Bool
  | .reservedOpE _ | .reservedOpF _ => true
  | .nop | .readStatus | .cfgBegin _ _ _ | .cfgField _ _ | .cfgCommit | .clear _ | .unpack _ | .writeField _ _
  | .readField _ _ | .extract _ _ | .serialize _ | .queryShift _ | .queryMask _ | .queryLayout => false

/-- The bank a container command names (R77). -/
def bankOf : Instr → Option BankSel
  | .clear c | .unpack c | .writeField c _ | .readField c _ | .extract c _ | .serialize c => some c
  | .nop | .readStatus | .cfgBegin _ _ _ | .cfgField _ _ | .cfgCommit | .queryShift _ | .queryMask _ | .queryLayout
  | .reservedOpE _ | .reservedOpF _ => none

/-- The identifier a command looks up; CFG_FIELD declares one and looks none up (R52, R100). -/
def lookupOf : Instr → Option Ident
  | .writeField _ id | .readField _ id | .extract _ id | .queryShift id | .queryMask id => some id
  | .nop | .readStatus | .cfgBegin _ _ _ | .cfgField _ _ | .cfgCommit | .clear _ | .unpack _ | .serialize _
  | .queryLayout | .reservedOpE _ | .reservedOpF _ => none

/-- The commands whose DATA_OUT is a word or value of the storage width (R37, R57). -/
def returnsStorageWord : Instr → Bool
  | .readField _ _ | .extract _ _ | .serialize _ => true
  | .nop | .readStatus | .cfgBegin _ _ _ | .cfgField _ _ | .cfgCommit | .clear _ | .unpack _ | .writeField _ _
  | .queryShift _ | .queryMask _ | .queryLayout | .reservedOpE _ | .reservedOpF _ => false

/-- The commands that return no data (R57). -/
def returnsNothing : Instr → Bool
  | .nop | .cfgBegin _ _ _ | .cfgField _ _ | .cfgCommit | .clear _ | .unpack _ | .writeField _ _
  | .reservedOpE _ | .reservedOpF _ => true
  | .readField _ _ | .extract _ _ | .serialize _ | .readStatus | .queryShift _ | .queryMask _ | .queryLayout => false

/-- The commands of the boot order: CFG_BEGIN, a CFG_FIELD a field in declaration order, CFG_COMMIT (R112). -/
def bootCommands (w : StorageWidth) (bo : ByteOrder) (fo : FieldOrder) (ds : List Descriptor) : List Command :=
  ({ cmd := encode (.cfgBegin w bo fo), dataIn := 0 } :: ds.map fun d => { cmd := encode (.cfgField d.id d.width), dataIn := 0 })
    ++ [{ cmd := encode .cfgCommit, dataIn := 0 }]

/-! ### Runs -/

/-- The run has ended: the host has no more to drive and has taken the response to its last command (R116). -/
abbrev State.Ended (s : State) : Prop := s.host = [] ∧ s.rsp = none

/-- A run is successful when FAULT = 0 in its final state (R116). -/
abbrev State.Successful (s : State) : Prop := s.fault = false

/-- The start of a run: the block after reset, and a host that issues the commands one after another (R116). -/
def runStart (cfg : Config) (cs : List Command) : State := .resetFor cfg (hostOf cs)

/-- The run of a command sequence from reset, every response taken: an offer and a taking a command. -/
def runOf (cfg : Config) (cs : List Command) : Result := Sys2Proof.core.run (2 * cs.length) (runStart cfg cs)

/-! ### The mask-on-write block of R84 -/

/-- WRITE_FIELD as a block with mask-on-write has it: the slot takes the value masked (R84). -/
def execWriteFieldMasked (csel : BankSel) (id : Ident) (s : State) : Result :=
  requireState inStateToUse s <| requireBank csel s <| requireField id s fun i => withBank csel s fun b =>
    withFieldLayout i s fun f =>
      respond .ok 0 (setBank csel (b.set i (observed f s.dataOperand)) s)

/-- The block that differs from this one only in that WRITE_FIELD masks (R84). -/
def execMasked (i : Instr) (s : State) : Result :=
  match i with
  | .writeField csel id => execWriteFieldMasked csel id s
  | .nop | .cfgBegin _ _ _ | .cfgField _ _ | .cfgCommit | .clear _ | .unpack _ | .readField _ _ | .extract _ _
  | .serialize _ | .queryShift _ | .queryMask _ | .queryLayout | .readStatus | .reservedOpE _ | .reservedOpF _ =>
    exec i s

/-- Its machine. -/
def maskedCore : Host.Core := { Sys2Proof.core with step := portStep execMasked }

/-- The observed values of a bank (R22). -/
def observedBank (fs : List FieldLayout) (b : List Word) : List Word := List.zipWith observed fs b

/-- The observed values of every bank; before a layout exists there is nothing to observe (R22). -/
def State.observedSlots (s : State) : List (List Word) :=
  match s.layout with
  | none => []
  | some l => s.slot.map (observedBank l.fields)

/-- Two states that differ at most in what no command observes: the raw slot bits above the fields (R30, R84). -/
def SameObserved (s t : State) : Prop := t = { s with slot := t.slot } ∧ t.observedSlots = s.observedSlots

end Sys2Proof.Machine
end

