-- ==== Sys2Proof/Certificates/Slice0/Obligations.lean ====
section
/-! DEFINITION. The statements for the provers. An equality `exec i s = .next (s.answered code data)` says the
response, that the command completes, and its frame: nothing but the waiting response changes. `s.erred e` is
the state after the error response of R101. -/

open Sys2Proof Sys2Proof.Machine

/-! ### Encoding -/

/-- Words that spec/95_test_vectors.md writes out decode to the commands it writes beside them. -/
def Obligations.WordsOfTheSpecDecode : Prop :=
  decode 0x00000000 = .ok .nop ∧
  decode 0x06800001 = .ok (.cfgBegin .w16 .little .lsbFirst) ∧
  decode 0x00400702 = .ok (.cfgField 7 64) ∧
  decode 0x00000003 = .ok .cfgCommit ∧
  decode 0x00000015 = .ok (.unpack 1) ∧
  decode 0x00000106 = .ok (.writeField 0 1) ∧
  decode 0x000009F7 = .ok (.readField 15 9) ∧
  decode 0x0000130A = .ok (.queryShift 0x13) ∧
  decode 0x00000010 = .error (.unusedBits 0) ∧
  decode 0x0800000F = .ok (.reservedOpF 0x0800000F)

/-- Decoding the encoding of a well-formed command gives it back, every operand at every value (R50 to R60, R63). -/
def Obligations.DecodeOfEncodeIsTheCommand : Prop :=
  ∀ i : Instr, i.wellFormed = true → decode (encode i) = .ok i

/-- No bit of a word is dropped: the command it decodes to is well formed and encodes to it (R58, R60). -/
def Obligations.EncodeOfDecodeIsTheWord : Prop :=
  ∀ (w : CmdWord) (i : Instr), decode w = .ok i → i.wellFormed = true ∧ encode i = w

/-- R58. Every word decodes to the unique row it matches; one that matches none gets ERR_ILLEGAL, and no state
other than LAST_ERR and FAULT changes (beside the response and DATA_IN, which are the port's). -/
def Obligations.EveryWordDecodesToItsUniqueRow : Prop :=
  ∀ w : CmdWord,
    (∀ r ∈ rows, ∀ r' ∈ rows, w &&& r.mask = r.pattern → w &&& r'.mask = r'.pattern → r.pattern = r'.pattern) ∧
    (∀ r ∈ rows, w &&& r.mask = r.pattern → decode w = .ok (r.build w)) ∧
    ((∀ r ∈ rows, w &&& r.mask ≠ r.pattern) →
      ∀ (d : Word) (s : State), acceptCommand exec { cmd := w, dataIn := d } s = .next ({ s with dataIn := d }.erred .errIllegal))

/-- R60. A 1 in a bit outside OP and outside the fields the word's row uses, or in `CMD[31:27]`, is illegal, and
the word is not executed as its OP. -/
def Obligations.UnusedBitSetIsIllegal : Prop :=
  ∀ (w : CmdWord) (d : Word) (s : State),
    ((∃ r ∈ rows, opField w = opField r.pattern ∧ ∃ k, 4 ≤ k ∧ r.mask.getLsbD k = true ∧ w.getLsbD k = true) ∨
      ∃ k, 27 ≤ k ∧ w.getLsbD k = true) →
    acceptCommand exec { cmd := w, dataIn := d } s = .next ({ s with dataIn := d }.erred .errIllegal)

/-- R59. Every word with OP 0xE or 0xF is illegal, whatever its other bits. -/
def Obligations.ReservedOpsAreIllegal : Prop :=
  (∀ (w : CmdWord) (d : Word) (s : State), opField w = 0xE ∨ opField w = 0xF →
    acceptCommand exec { cmd := w, dataIn := d } s = .next ({ s with dataIn := d }.erred .errIllegal)) ∧
  ∀ (w : CmdWord) (s : State),
    exec (.reservedOpE w) s = .next (s.erred .errIllegal) ∧ exec (.reservedOpF w) s = .next (s.erred .errIllegal)

/-- A line of the assembly language with its numbers in range assembles to the word of the formula
`OP | CSEL<<4 | ID<<8 | WIDTH<<16 | WSEL<<23 | BO<<25 | FO<<26` and its data operand, 0 where it has none, and the
word decodes to the one command the mnemonic names; `.word` emits any word; a number out of range assembles to nothing
(R63, R64). That a bank number of 16 or more, a DATA_IN operand of 2^64 or more and a `.word` command of 2^32 or more
are out of range is the model's choice (log entry 12): R63 bounds only `id`, `width` and the four storage widths. -/
def Obligations.AssembledLinesAreTheirCommands : Prop :=
  (∀ (c : Command) (i : Instr) (l : AsmLine), assemble l = some c → (∀ a b, l ≠ .word a b) →
    decode c.cmd = .ok i → (match l with
      | .nop => i = .nop ∧ c.cmd.toNat = 0 ∧ c.dataIn = 0
      | .cfgBegin w bo fo => ∃ sw : StorageWidth, sw.bits = w ∧ i = .cfgBegin sw bo fo ∧ c.dataIn = 0 ∧
          c.cmd.toNat = 1 + sw.toWsel.toNat * 2 ^ 23 + bo.toBit.toNat * 2 ^ 25 + fo.toBit.toNat * 2 ^ 26
      | .cfgField id n => i = .cfgField (.ofNat 8 id) (.ofNat 7 n) ∧ c.cmd.toNat = 2 + id * 2 ^ 8 + n * 2 ^ 16 ∧ c.dataIn = 0
      | .cfgCommit => i = .cfgCommit ∧ c.cmd.toNat = 3 ∧ c.dataIn = 0
      | .clear b => i = .clear (.ofNat 4 b) ∧ c.cmd.toNat = 4 + b * 2 ^ 4 ∧ c.dataIn = 0
      | .unpack b d => i = .unpack (.ofNat 4 b) ∧ c.cmd.toNat = 5 + b * 2 ^ 4 ∧ c.dataIn.toNat = d
      | .wr b id d => i = .writeField (.ofNat 4 b) (.ofNat 8 id) ∧ c.cmd.toNat = 6 + b * 2 ^ 4 + id * 2 ^ 8 ∧ c.dataIn.toNat = d
      | .rd b id => i = .readField (.ofNat 4 b) (.ofNat 8 id) ∧ c.cmd.toNat = 7 + b * 2 ^ 4 + id * 2 ^ 8 ∧ c.dataIn = 0
      | .ext b id => i = .extract (.ofNat 4 b) (.ofNat 8 id) ∧ c.cmd.toNat = 8 + b * 2 ^ 4 + id * 2 ^ 8 ∧ c.dataIn = 0
      | .ser b => i = .serialize (.ofNat 4 b) ∧ c.cmd.toNat = 9 + b * 2 ^ 4 ∧ c.dataIn = 0
      | .qShift id => i = .queryShift (.ofNat 8 id) ∧ c.cmd.toNat = 10 + id * 2 ^ 8 ∧ c.dataIn = 0
      | .qMask id => i = .queryMask (.ofNat 8 id) ∧ c.cmd.toNat = 11 + id * 2 ^ 8 ∧ c.dataIn = 0
      | .qLayout => i = .queryLayout ∧ c.cmd.toNat = 12 ∧ c.dataIn = 0
      | .rdStatus => i = .readStatus ∧ c.cmd.toNat = 13 ∧ c.dataIn = 0
      | .word _ _ => False)) ∧
  (∀ (c : Command) (l : AsmLine), assemble l = some c → (∀ a b, l ≠ .word a b) → ∃ i, decode c.cmd = .ok i) ∧
  (∀ a b : Nat, a < 2 ^ 32 → b < 2 ^ 64 → assemble (.word a b) = some { cmd := .ofNat 32 a, dataIn := .ofNat 64 b }) ∧
  (∀ l : AsmLine, (assemble l).isSome = true ↔ l.wellFormed = true)

/-! ### The port, the step and reset -/

/-- The step at a state whose host offers a command to a ready block accepts it, with the cycle consumed and DATA_IN
sampled: it is the meaning of the decoded command, and for a word of no row it is ERR_ILLEGAL with the effects of an
error response and no other (R35, R36, R58, R101). -/
def Obligations.StepRunsTheDecodedCommand : Prop :=
  ∀ (s : State) (h : HostCycle) (rest : List HostCycle),
    s.host = h :: rest → h.rst = false → h.cmdValid = true → s.rsp = none →
    step s = acceptCommand exec { cmd := h.cmd, dataIn := h.dataIn } { s with host := rest } ∧
    (∀ i, decode h.cmd = .ok i → step s = exec i { s with host := rest, dataIn := h.dataIn }) ∧
    (∀ e, decode h.cmd = .error e → step s = .next ({ s with host := rest, dataIn := h.dataIn }.erred .errIllegal))

/-- What the other cycles do (R35, R108, R111): `rst` wins over all; while a response waits it is taken or goes on
waiting and no command is accepted; with nothing offered the block keeps its state; a host that drives nothing
leaves the block as it is. Three points are the model's: that `rst` wins over the other lines of its cycle and that no
command is accepted on the very cycle on which a response is taken, whatever is offered then, are its reading of R111
and R35 (log entry 2), and what a host that drives nothing means is its choice (log entry 3). -/
def Obligations.OneCommandInFlight : Prop :=
  (∀ (s : State) (h : HostCycle) (rest : List HostCycle), s.host = h :: rest → h.rst = true →
    step s = .next (.resetFor s.cfg rest)) ∧
  (∀ (s : State) (h : HostCycle) (rest : List HostCycle) (r : Response),
    s.host = h :: rest → h.rst = false → s.rsp = some r →
    step s = .next (if h.rspReady then { s with host := rest, rsp := none, taken := s.taken ++ [r] } else { s with host := rest })) ∧
  (∀ (s : State) (h : HostCycle) (rest : List HostCycle),
    s.host = h :: rest → h.rst = false → s.rsp = none → h.cmdValid = false → step s = .next { s with host := rest }) ∧
  (∀ s : State, s.host = [] → step s = .next s)

/-- Every accepted command produces exactly one response, in its own step, legal word or not (R35, R36, R109). -/
def Obligations.EveryAcceptedCommandGetsOneResponse : Prop :=
  ∀ (s : State) (h : HostCycle) (rest : List HostCycle),
    s.Inv → s.host = h :: rest → h.rst = false → h.cmdValid = true → s.rsp = none →
    ∃ (t : State) (r : Response), step s = .next t ∧ t.responses = s.responses ++ [r] ∧ t.rsp = some r ∧ t.host = rest

/-- Reset meets the invariant, for every implementation and every host. -/
def Obligations.ResetMeetsTheInvariant : Prop :=
  State.reset.Inv ∧ ∀ (cfg : Config) (host : List HostCycle), cfg.wellFormed = true → (State.resetFor cfg host).Inv

/-- Every step keeps the invariant, from every state that meets it. -/
def Obligations.EveryStepKeepsTheInvariant : Prop :=
  ∀ s t : State, s.Inv → step s = .next t → t.Inv

/-- No state that meets the invariant is stuck: neither a fault nor a refusal ends a step (R36, R109). -/
def Obligations.NoStepIsStuck : Prop :=
  ∀ s : State, s.Inv → ∃ t : State, step s = .next t

/-- R110. Asserting `rst` puts every element at its reset value, and reset is the only event that leaves VALID,
clears FAULT and LAST_ERR, or discards a committed layout; after reset the block waits. -/
def Obligations.ResetValuesAndOnlyReset : Prop :=
  (∀ (s : State) (h : HostCycle) (rest : List HostCycle), s.host = h :: rest → h.rst = true →
    ∃ t : State, step s = .next t ∧ t.cstate = .unconfigured ∧ t.wsel.toWsel = 0 ∧ t.bo = .big ∧ t.fo = .msbFirst ∧
      t.fcount = 0 ∧ t.eCount = false ∧ t.eZero = false ∧ t.eDup = false ∧ t.eSum = false ∧ t.lastErr.toBits = 0 ∧
      t.fault = false ∧ (∀ j : Fin maxFields, t.desc[j] = none) ∧ t.layout = none ∧ (∀ c i, t.rawSlot c i = none) ∧
      t.rsp = none ∧ t.cmdReady = true ∧ statusWord t = 0) ∧
  (∀ s t : State, step s = .next t → (∀ h, s.host.head? = some h → h.rst = false) →
    (s.cstate = .valid → t.cstate = .valid ∧ t.layout = s.layout) ∧
    (s.fault = true → t.fault = true) ∧ (s.lastErr ≠ .ok → t.lastErr ≠ .ok))

/-! ### Schema loading -/

/-- CFG_BEGIN starts a new schema outside VALID and is refused in VALID (R65). -/
def Obligations.CfgBeginStartsASchema : Prop :=
  ∀ (w : StorageWidth) (bo : ByteOrder) (fo : FieldOrder) (s : State),
    (s.cstate ≠ .valid → exec (.cfgBegin w bo fo) s = .next
      { s with wsel := w, bo := bo, fo := fo, fcount := 0, eCount := false, eZero := false, eDup := false, eSum := false,
               cstate := .config, rsp := some { code := .ok, dataOut := 0 } }) ∧
    (s.cstate = .valid → exec (.cfgBegin w bo fo) s = .next (s.erred .errState))

/-- CFG_FIELD appends one descriptor to the schema, whatever its width and identifier; of a full store it sets
E_COUNT and stores nothing (R66, R18). -/
def Obligations.CfgFieldAppendsADescriptor : Prop :=
  ∀ (id : Ident) (width : BitVec 7) (s : State), s.Inv → s.cstate = .config →
    (s.fcount.toNat < 64 → ∃ (t : State) (ds : List Descriptor), exec (.cfgField id width) s = .next t ∧
      s.schema? = some ds ∧ t.schema? = some (ds ++ [{ id := id, width := width }]) ∧
      t.fcount.toNat = s.fcount.toNat + 1 ∧ (∀ j : Fin maxFields, j.val ≠ s.fcount.toNat → t.desc[j] = s.desc[j]) ∧
      t = { s with desc := t.desc, fcount := t.fcount, rsp := some { code := .ok, dataOut := 0 } }) ∧
    (s.fcount.toNat = 64 → exec (.cfgField id width) s = .next ({ s with eCount := true }.answered .ok 0))

/-- CFG_COMMIT of a schema that passes derives the layout, creates every bank with zero slots, and locks (R67). -/
def Obligations.CfgCommitDerivesTheLayout : Prop :=
  ∀ (s : State) (ds : List Descriptor), s.Inv → s.cstate = .config → s.schema? = some ds →
    passes s.eCount (validate ds s.wsel) = true →
    ∃ l : Layout, exec .cfgCommit s = .next
        ({ s with layout := some l, slot := List.replicate s.cfg.nCont (List.replicate s.fcount.toNat 0), cstate := .valid }.answered .ok 0) ∧
      l.fields.length = s.fcount.toNat ∧ l.occ.toNat = s.wsel.bits ∧
      ∀ (i : Nat) (f : FieldLayout), l.fields[i]? = some f →
        f.mask.toNat = 2 ^ widthAt ds i - 1 ∧
        f.shift.toNat = match s.fo with
          | .msbFirst => ∑ j ∈ Finset.Ico (i + 1) ds.length, widthAt ds j
          | .lsbFirst => ∑ j ∈ Finset.range i, widthAt ds j

/-- CFG_COMMIT of a schema that fails sets each flag to its check's result, enters ERROR and answers ERR_SCHEMA;
no layout, no container (R67). -/
def Obligations.CfgCommitRejectsABadSchema : Prop :=
  ∀ (s : State) (ds : List Descriptor), s.cstate = .config → s.schema? = some ds →
    passes s.eCount (validate ds s.wsel) = false →
    exec .cfgCommit s = .next
      ({ s with eZero := decide (∃ d : Descriptor, d ∈ ds ∧ d.width = 0), eDup := decide (¬ (ds.map Descriptor.id).Nodup),
                eSum := decide (∑ j ∈ Finset.range ds.length, widthAt ds j ≠ s.wsel.bits), cstate := .error }.erred .errSchema)

/-- R68. Validation finds exactly the violations: a zero width, two equal identifiers, a width sum other than `W`,
the sum exact; a width above `W` always fails the sum check. -/
def Obligations.ValidationFindsExactlyTheViolations : Prop :=
  ∀ (ds : List Descriptor) (w : StorageWidth) (eCount : Bool),
    ((validate ds w).zero = true ↔ ∃ (i : Nat) (d : Descriptor), ds[i]? = some d ∧ d.width = 0) ∧
    ((validate ds w).dup = true ↔ ∃ (i j : Nat) (d d' : Descriptor), i < j ∧ ds[i]? = some d ∧ ds[j]? = some d' ∧ d.id = d'.id) ∧
    ((validate ds w).sum = ∑ j ∈ Finset.range ds.length, widthAt ds j) ∧
    ((validate ds w).badSum = true ↔ (validate ds w).sum ≠ w.bits) ∧
    (passes eCount (validate ds w) = true ↔ eCount = false ∧ (validate ds w).zero = false ∧ (validate ds w).dup = false ∧
      (validate ds w).badSum = false) ∧
    (∀ d ∈ ds, w.bits < d.width.toNat → (validate ds w).badSum = true)

/-- R69. In MSB_FIRST order a field's shift is the sum of the widths declared after it; the last-declared field is
at shift 0, and the first-declared one at the top of the word. -/
def Obligations.MsbFirstShifts : Prop :=
  (∀ (s : State) (ds : List Descriptor) (i : Nat) (f : FieldLayout), s.Inv → s.cstate = .valid → s.fo = .msbFirst →
    s.schema? = some ds → s.LayoutAt i f →
    f.shift.toNat = ∑ j ∈ Finset.Ico (i + 1) ds.length, widthAt ds j ∧ (i + 1 = ds.length → f.shift = 0) ∧
    (i = 0 → f.shift.toNat + widthAt ds 0 = s.wsel.bits)) ∧
  (fieldLayoutsOf .msbFirst [3, 2, 3]).map (fun f => f.shift) = [5, 3, 0]

/-- R70. In LSB_FIRST order a field's shift is the sum of the widths declared before it; the first-declared field
is at shift 0, the last-declared one at the top; MSB_FIRST is the order at reset. -/
def Obligations.LsbFirstShifts : Prop :=
  (∀ (s : State) (ds : List Descriptor) (i : Nat) (f : FieldLayout), s.Inv → s.cstate = .valid → s.fo = .lsbFirst →
    s.schema? = some ds → s.LayoutAt i f →
    f.shift.toNat = ∑ j ∈ Finset.range i, widthAt ds j ∧ (i = 0 → f.shift = 0) ∧
    (i + 1 = ds.length → f.shift.toNat + widthAt ds i = s.wsel.bits)) ∧
  (fieldLayoutsOf .lsbFirst [3, 2, 3]).map (fun f => f.shift) = [0, 3, 5] ∧ State.reset.fo = .msbFirst

/-- R71, R72. Masks are exact, all ones for a field as wide as the word; OCC is the width sum, and it is `W`. -/
def Obligations.MasksAndOccupiedWidth : Prop :=
  ∀ (s : State) (ds : List Descriptor), s.Inv → s.cstate = .valid → s.schema? = some ds →
    (∀ i f, s.LayoutAt i f → f.mask.toNat = 2 ^ widthAt ds i - 1 ∧
      (widthAt ds i = s.wsel.bits → f.mask.toNat = 2 ^ s.wsel.bits - 1) ∧
      (wordMask f).toNat = f.mask.toNat * 2 ^ f.shift.toNat) ∧
    ∃ l, s.layout = some l ∧ l.occ.toNat = ∑ j ∈ Finset.range ds.length, widthAt ds j ∧ l.occ.toNat = s.wsel.bits

/-- R74. The bounds of a layout in use. -/
def Obligations.LayoutBounds : Prop :=
  ∀ (s : State) (ds : List Descriptor), s.Inv → s.cstate = .valid → s.schema? = some ds →
    1 ≤ s.fcount.toNat ∧ s.fcount.toNat ≤ s.wsel.bits ∧ ds.length = s.fcount.toNat ∧
    ∀ i f, s.LayoutAt i f →
      1 ≤ widthAt ds i ∧ widthAt ds i ≤ s.wsel.bits ∧ f.shift.toNat + widthAt ds i ≤ s.wsel.bits ∧
      f.shift.toNat ≤ s.wsel.bits - 1 ∧ f.mask.toNat ≤ 2 ^ s.wsel.bits - 1 ∧
      f.mask.toNat <<< f.shift.toNat < 2 ^ s.wsel.bits

/-- R75. In VALID the word-local masks partition the word, in both field orders: a field's mask is exactly its
bits, two masks share no bit, together they are the word, and every bit belongs to exactly one field. -/
def Obligations.FieldsPartitionTheWord : Prop :=
  ∀ (s : State) (ds : List Descriptor) (l : Layout), s.Inv → s.cstate = .valid → s.schema? = some ds → s.layout = some l →
    (∀ i f, s.LayoutAt i f → ∀ k, (wordMask f).getLsbD k = true ↔ f.shift.toNat ≤ k ∧ k < f.shift.toNat + widthAt ds i) ∧
    (∀ i j f g, s.LayoutAt i f → s.LayoutAt j g → i ≠ j → wordMask f &&& wordMask g = 0) ∧
    orAll (l.fields.map wordMask) = ones s.wsel.bits ∧
    ∀ k, k < s.wsel.bits → ∃! i, ∃ f, s.LayoutAt i f ∧ (wordMask f).getLsbD k = true

/-- The layout never depends on the byte order: a commit under another BO differs in nothing but BO (R46). -/
def Obligations.LayoutIgnoresByteOrder : Prop :=
  ∀ (s t : State) (bo : ByteOrder), exec .cfgCommit s = .next t → exec .cfgCommit { s with bo := bo } = .next { t with bo := bo }

/-- R76. No command other than CFG_COMMIT writes the layout; CFG_COMMIT writes it only from CONFIG into VALID; no
command leaves VALID or changes the layout in it. -/
def Obligations.LayoutIsWrittenOnce : Prop :=
  ∀ (i : Instr) (s t : State), exec i s = .next t →
    (i ≠ .cfgCommit → t.layout = s.layout) ∧
    (t.layout ≠ s.layout → s.cstate = .config ∧ t.cstate = .valid) ∧
    (s.cstate = .valid → t.cstate = .valid ∧ t.layout = s.layout)

/-- R16. The four states, their transitions, that no other command writes CSTATE, and that only reset leaves VALID. -/
def Obligations.ConfigurationStateTransitions : Prop :=
  (CState.unconfigured.toBits = 0 ∧ CState.config.toBits = 1 ∧ CState.valid.toBits = 2 ∧ CState.error.toBits = 3) ∧
  State.reset.cstate = .unconfigured ∧
  (∀ (i : Instr) (s t : State), exec i s = .next t →
    ((∃ w bo fo, i = .cfgBegin w bo fo) → s.cstate ≠ .valid → t.cstate = .config) ∧
    (i = .cfgCommit → s.cstate = .config → ∀ ds, s.schema? = some ds →
      t.cstate = if passes s.eCount (validate ds s.wsel) then .valid else .error) ∧
    (t.cstate ≠ s.cstate → (∃ w bo fo, i = .cfgBegin w bo fo ∧ s.cstate ≠ .valid) ∨ (i = .cfgCommit ∧ s.cstate = .config))) ∧
  ∀ s t : State, step s = .next t → s.cstate = .valid → t.cstate ≠ .valid → ∃ h, s.host.head? = some h ∧ h.rst = true

/-- R31. Every state element: its value after reset, and the only commands that write it. -/
def Obligations.StateElementsAndTheirWriters : Prop :=
  (State.reset.cstate = .unconfigured ∧ State.reset.wsel.toWsel = 0 ∧ State.reset.bo = .big ∧ State.reset.fo = .msbFirst ∧
    State.reset.fcount = 0 ∧ (∀ j : Fin maxFields, State.reset.desc[j] = none) ∧ State.reset.eCount = false ∧
    State.reset.eZero = false ∧ State.reset.eDup = false ∧ State.reset.eSum = false ∧ State.reset.layout = none ∧
    (∀ c i, State.reset.rawSlot c i = none) ∧ State.reset.lastErr.toBits = 0 ∧ State.reset.fault = false) ∧
  ∀ (i : Instr) (s t : State), exec i s = .next t →
    (t.cstate ≠ s.cstate → (∃ w bo fo, i = .cfgBegin w bo fo) ∨ i = .cfgCommit) ∧
    (t.wsel ≠ s.wsel ∨ t.bo ≠ s.bo ∨ t.fo ≠ s.fo → ∃ w bo fo, i = .cfgBegin w bo fo) ∧
    (t.fcount ≠ s.fcount → (∃ w bo fo, i = .cfgBegin w bo fo) ∨ ∃ id n, i = .cfgField id n) ∧
    (t.desc ≠ s.desc → ∃ id n, i = .cfgField id n) ∧
    (t.eCount ≠ s.eCount → (∃ w bo fo, i = .cfgBegin w bo fo) ∨ ∃ id n, i = .cfgField id n) ∧
    (t.eZero ≠ s.eZero ∨ t.eDup ≠ s.eDup ∨ t.eSum ≠ s.eSum → (∃ w bo fo, i = .cfgBegin w bo fo) ∨ i = .cfgCommit) ∧
    (t.layout ≠ s.layout → i = .cfgCommit) ∧
    (t.slot ≠ s.slot → i = .cfgCommit ∨ (∃ c, i = .clear c) ∨ (∃ c, i = .unpack c) ∨ ∃ c id, i = .writeField c id) ∧
    (t.lastErr ≠ s.lastErr ∨ t.fault ≠ s.fault → ∃ r, t.rsp = some r ∧ r.code ≠ .ok) ∧
    t.cfg = s.cfg ∧ t.host = s.host ∧ t.taken = s.taken ∧ t.dataIn = s.dataIn

/-! ### Container commands -/

/-- CLEAR makes every slot of its bank 0, and changes nothing else (R78, R23). -/
def Obligations.ClearMakesTheBankEmpty : Prop :=
  ∀ (c : BankSel) (s : State), s.Usable c → ∃ t : State, exec (.clear c) s = .next t ∧
    (∀ i, i < s.fcount.toNat → t.rawSlot c.toNat i = some 0) ∧
    (∀ b, b ≠ c.toNat → t.slot[b]? = s.slot[b]?) ∧
    t = { s with slot := t.slot, rsp := some { code := .ok, dataOut := 0 } }

/-- UNPACK writes every slot of its bank with its field of the word `T(DATA_IN[W-1:0])`, and changes nothing else
(R79, R23, R37). -/
def Obligations.UnpackTakesEveryField : Prop :=
  ∀ (c : BankSel) (s : State), s.Usable c → ∃ t : State, exec (.unpack c) s = .next t ∧
    (∀ i d f, s.FieldAt i d → s.LayoutAt i f → ∃ v, t.rawSlot c.toNat i = some v ∧
      v.toNat = (transform s.bo s.wsel (trunc s.wsel.bits s.dataIn)).toNat / 2 ^ f.shift.toNat % 2 ^ d.width.toNat) ∧
    (∀ b, b ≠ c.toNat → t.slot[b]? = s.slot[b]?) ∧
    t = { s with slot := t.slot, rsp := some { code := .ok, dataOut := 0 } }

/-- WRITE_FIELD stores `DATA_IN[W-1:0]` verbatim in the slot of the field its identifier names, and changes nothing
else (R80, R102, R114). -/
def Obligations.WriteFieldStoresVerbatim : Prop :=
  ∀ (c : BankSel) (s : State) (i : Nat) (d : Descriptor), s.Usable c → s.FieldAt i d →
    ∃ t : State, exec (.writeField c d.id) s = .next t ∧
      (∃ v, t.rawSlot c.toNat i = some v ∧ v.toNat = s.dataIn.toNat % 2 ^ s.wsel.bits) ∧
      (∀ b j, ¬ (b = c.toNat ∧ j = i) → t.rawSlot b j = s.rawSlot b j) ∧
      t = { s with slot := t.slot, rsp := some { code := .ok, dataOut := 0 } }

/-- READ_FIELD returns the low bits of the slot, as many as the field is wide, and changes nothing (R81, R22). -/
def Obligations.ReadFieldReturnsTheObservedValue : Prop :=
  ∀ (c : BankSel) (s : State) (i : Nat) (d : Descriptor) (v : Word), s.Usable c → s.FieldAt i d →
    s.rawSlot c.toNat i = some v →
    ∃ r : Word, exec (.readField c d.id) s = .next (s.answered .ok r) ∧ r.toNat = v.toNat % 2 ^ d.width.toNat

/-- EXTRACT returns `T` of the observed value at the field's shift, every other bit 0, and changes nothing (R82). -/
def Obligations.ExtractProjectsOneField : Prop :=
  ∀ (c : BankSel) (s : State) (i : Nat) (d : Descriptor) (f : FieldLayout) (v : Word), s.Usable c → s.FieldAt i d →
    s.LayoutAt i f → s.rawSlot c.toNat i = some v →
    ∃ p : Word, exec (.extract c d.id) s = .next (s.answered .ok (transform s.bo s.wsel p)) ∧
      p.toNat = v.toNat % 2 ^ d.width.toNat * 2 ^ f.shift.toNat ∧ p.toNat < 2 ^ s.wsel.bits

/-- SERIALIZE returns `T` of the word that has every field's observed value in its place and no bit outside the
word, and changes nothing (R83). -/
def Obligations.SerializePacksEveryField : Prop :=
  ∀ (c : BankSel) (s : State), s.Usable c →
    ∃ p : Word, exec (.serialize c) s = .next (s.answered .ok (transform s.bo s.wsel p)) ∧ p.toNat < 2 ^ s.wsel.bits ∧
      ∀ i d f v, s.FieldAt i d → s.LayoutAt i f → s.rawSlot c.toNat i = some v →
        p.toNat / 2 ^ f.shift.toNat % 2 ^ d.width.toNat = v.toNat % 2 ^ d.width.toNat

/-- R23. A command that names bank `c` writes no slot of any other bank. -/
def Obligations.BanksAreDisjoint : Prop :=
  ∀ (i : Instr) (c : BankSel) (s t : State), bankOf i = some c → exec i s = .next t →
    ∀ b j, b ≠ c.toNat → t.rawSlot b j = s.rawSlot b j

/-! ### Queries, status, no-op -/

/-- NOP answers OK with 0 in every state and changes nothing (R93). -/
def Obligations.NopOnlyAnswers : Prop :=
  ∀ s : State, exec .nop s = .next (s.answered .ok 0)

/-- QUERY_SHIFT and QUERY_MASK return the field's shift and its unshifted mask, and change nothing (R94, R95). -/
def Obligations.QueriesReturnShiftAndMask : Prop :=
  ∀ (s : State) (i : Nat) (d : Descriptor) (f : FieldLayout), s.Inv → s.cstate = .valid → s.FieldAt i d → s.LayoutAt i f →
    (∃ r : Word, exec (.queryShift d.id) s = .next (s.answered .ok r) ∧ r.toNat = f.shift.toNat) ∧
    ∃ r : Word, exec (.queryMask d.id) s = .next (s.answered .ok r) ∧ r.toNat = 2 ^ d.width.toNat - 1

/-- QUERY_LAYOUT returns the summary word of R96, and changes nothing. -/
def Obligations.QueryLayoutReturnsTheSummary : Prop :=
  ∀ s : State, s.Inv → s.cstate = .valid → ∃ r : Word, exec .queryLayout s = .next (s.answered .ok r) ∧
    (r.extractLsb' 0 7).toNat = s.wsel.bits ∧ r.extractLsb' 7 7 = s.fcount ∧ r.extractLsb' 14 2 = s.wsel.toWsel ∧
    r.extractLsb' 16 1 = s.bo.toBit ∧ r.extractLsb' 17 1 = s.fo.toBit ∧ r.extractLsb' 18 46 = 0

/-- R26. The STATUS word READ_STATUS returns shows each field of the state at its bits, 0 in the reserved ones; it
is 0 after reset. Reading changes nothing. The codes it shows are the numbers the spec gives them: the response codes
0 to 5 of R98, WSEL with `W = 8 << WSEL` (R17, R54), BIG and MSB_FIRST 0, LITTLE and LSB_FIRST 1 (R17, R55), and the
values of CSTATE (R16). -/
def Obligations.StatusWordShowsTheState : Prop :=
  (∀ s : State, ∃ r : Word, exec .readStatus s = .next (s.answered .ok r) ∧
    r.extractLsb' 0 2 = s.cstate.toBits ∧ r.extractLsb' 2 2 = s.wsel.toWsel ∧ r.extractLsb' 4 1 = s.bo.toBit ∧
    r.extractLsb' 5 1 = s.fo.toBit ∧ r.extractLsb' 6 7 = s.fcount ∧ r.getLsbD 13 = s.eCount ∧ r.getLsbD 14 = s.eZero ∧
    r.getLsbD 15 = s.eDup ∧ r.getLsbD 16 = s.eSum ∧ r.extractLsb' 17 3 = 0 ∧ r.extractLsb' 20 4 = s.lastErr.toBits ∧
    r.getLsbD 24 = s.fault ∧ r.extractLsb' 25 39 = 0) ∧
  exec .readStatus State.reset = .next (State.reset.answered .ok 0) ∧
  (RspCode.ok.toBits = 0x0 ∧ RspCode.errIllegal.toBits = 0x1 ∧ RspCode.errState.toBits = 0x2 ∧ RspCode.errCsel.toBits = 0x3 ∧
    RspCode.errNoField.toBits = 0x4 ∧ RspCode.errSchema.toBits = 0x5) ∧
  (∀ w : StorageWidth, w.bits = 8 * 2 ^ w.toWsel.toNat) ∧
  (ByteOrder.big.toBit = 0 ∧ ByteOrder.little.toBit = 1 ∧ FieldOrder.msbFirst.toBit = 0 ∧ FieldOrder.lsbFirst.toBit = 1) ∧
  (CState.unconfigured.toBits = 0 ∧ CState.config.toBits = 1 ∧ CState.valid.toBits = 2 ∧ CState.error.toBits = 3)

/-! ### Errors -/

/-- R99. A command issued in a state its row of the table does not allow gets ERR_STATE, and one issued in a state
it allows never does. -/
def Obligations.CommandsOutsideTheirStates : Prop :=
  ∀ (i : Instr) (s : State), isReserved i = false →
    (s.cstate ∉ allowedStates i → exec i s = .next (s.erred .errState)) ∧
    (s.cstate ∈ allowedStates i → ∀ t r, exec i s = .next t → t.rsp = some r → r.code ≠ .errState)

/-- R100. The checks run in their order, and the first that fails gives the response, with no other effect:
decode, state, bank, field, then the command, which can fail only as CFG_COMMIT with ERR_SCHEMA. -/
def Obligations.FirstFailingCheckAnswers : Prop :=
  ∀ (k : Command) (s : State), s.Inv → ∃ (t : State) (r : Response), acceptCommand exec k s = .next t ∧ t.rsp = some r ∧
    (r.code ≠ .ok → r.code ≠ .errSchema → t = { s with dataIn := k.dataIn }.erred r.code) ∧
    ((∃ e, decode k.cmd = .error e) → r.code = .errIllegal) ∧
    ∀ i, decode k.cmd = .ok i →
      (isReserved i = true → r.code = .errIllegal) ∧
      (isReserved i = false →
        (s.cstate ∉ allowedStates i → r.code = .errState) ∧
        (s.cstate ∈ allowedStates i →
          (∀ c, bankOf i = some c → s.cfg.nCont ≤ c.toNat → r.code = .errCsel) ∧
          ((∀ c, bankOf i = some c → c.toNat < s.cfg.nCont) →
            (∀ id, lookupOf i = some id → (∀ (j : Nat) (d : Descriptor), s.FieldAt j d → d.id ≠ id) → r.code = .errNoField) ∧
            ((∀ id, lookupOf i = some id → ∃ (j : Nat) (d : Descriptor), s.FieldAt j d ∧ d.id = id) →
              (i ≠ .cfgCommit → r.code = .ok) ∧
              (i = .cfgCommit → ∀ ds, s.schema? = some ds →
                r.code = if passes s.eCount (validate ds s.wsel) then .ok else .errSchema)))))

/-- R101. Every response other than OK sets LAST_ERR and FAULT and carries 0, and changes nothing else, but for
ERR_SCHEMA, which also puts CSTATE to ERROR and the three flags to their checks' results; a response OK changes neither, so FAULT stays 1. -/
def Obligations.ErrorResponsesHaveExactlyTheirEffects : Prop :=
  ∀ (k : Command) (s t : State), acceptCommand exec k s = .next t → ∃ r, t.rsp = some r ∧
    (r.code ≠ .ok → t.lastErr = r.code ∧ t.fault = true ∧ r.dataOut = 0) ∧
    (r.code ≠ .ok → r.code ≠ .errSchema → t = { s with dataIn := k.dataIn }.erred r.code) ∧
    (r.code = .errSchema → ∃ ds, s.schema? = some ds ∧
      t = { s with dataIn := k.dataIn, cstate := .error, eZero := (validate ds s.wsel).zero, eDup := (validate ds s.wsel).dup,
                   eSum := (validate ds s.wsel).badSum }.erred .errSchema) ∧
    (r.code = .ok → t.lastErr = s.lastErr ∧ t.fault = s.fault) ∧ (s.fault = true → t.fault = true)

/-- R103. The data path has no errors: no DATA_IN and no slot contents change a response code, and a container
command answers nothing but OK, ERR_STATE, ERR_CSEL and ERR_NO_FIELD. -/
def Obligations.DataPathHasNoErrors : Prop :=
  ∀ (i : Instr) (c : BankSel) (s s' : State), bankOf i = some c → s.Inv → s'.Inv →
    s' = { s with slot := s'.slot, dataIn := s'.dataIn } →
    ∃ (t t' : State) (r r' : Response), exec i s = .next t ∧ exec i s' = .next t' ∧ t.rsp = some r ∧ t'.rsp = some r' ∧
      r.code = r'.code ∧ (r.code = .ok ∨ r.code = .errState ∨ r.code = .errCsel ∨ r.code = .errNoField)

/-! ### Byte order and bus width -/

/-- R42. In BIG order `T` changes nothing; in LITTLE order byte `k` of a `W`-bit word becomes byte `N-1-k`. -/
def Obligations.TransformReversesTheBytes : Prop :=
  ∀ (w : StorageWidth) (v : Word), trunc w.bits v = v →
    transform .big w v = v ∧ trunc w.bits (transform .little w v) = transform .little w v ∧
    ∀ k, k < w.bits / 8 → (transform .little w v).extractLsb' (8 * (w.bits / 8 - 1 - k)) 8 = v.extractLsb' (8 * k) 8

/-- R45. `T(T(v)) = v` for every `W`-bit `v`, in both byte orders and at every `W`. -/
def Obligations.TransformIsAnInvolution : Prop :=
  ∀ (bo : ByteOrder) (w : StorageWidth) (v : Word), trunc w.bits v = v → transform bo w (transform bo w v) = v

/-- R43, R90. On 1-byte words `T` is the identity, and the byte order makes no difference to EXTRACT, SERIALIZE or
UNPACK. -/
def Obligations.OneByteWordsHaveNoByteOrder : Prop :=
  (∀ (bo : ByteOrder) (v : Word), trunc 8 v = v → transform bo .w8 v = v) ∧
  ∀ (i : Instr) (s t : State), s.Inv → s.wsel = .w8 →
    ((∃ c id, i = .extract c id) ∨ (∃ c, i = .serialize c) ∨ ∃ c, i = .unpack c) →
    exec i { s with bo := .big } = .next t → exec i { s with bo := .little } = .next { t with bo := .little }

/-- R37. `DATA_IN[63:W]` changes no state and no response; a returned storage word is below `2^W`; DATA_OUT is 0
from a command that returns no data and in an error. -/
def Obligations.BusWidthAgainstStorageWidth : Prop :=
  (∀ (i : Instr) (s t : State) (d : Word), trunc s.wsel.bits d = trunc s.wsel.bits s.dataIn →
    exec i s = .next t → exec i { s with dataIn := d } = .next { t with dataIn := d }) ∧
  ∀ (i : Instr) (s t : State), s.Inv → exec i s = .next t → ∃ r, t.rsp = some r ∧
    (returnsStorageWord i = true → r.dataOut.toNat < 2 ^ s.wsel.bits) ∧
    (returnsNothing i = true ∨ r.code ≠ .ok → r.dataOut = 0)

/-- DATA_IN is used by exactly two commands: every other one does the same whatever stands there (R56). -/
def Obligations.OnlyTwoCommandsReadDataIn : Prop :=
  ∀ (i : Instr) (s t : State) (d : Word), (∀ c, i ≠ .unpack c) → (∀ c id, i ≠ .writeField c id) →
    exec i s = .next t → exec i { s with dataIn := d } = .next { t with dataIn := d }

/-! ### The laws of the container -/

/-- R85. SERIALIZE returns the OR of EXTRACT over every field, in both byte orders. -/
def Obligations.SerializeIsTheOrOfExtracts : Prop :=
  ∀ (c : BankSel) (s : State), s.Usable c → ∃ es : List Word, es.length = s.fcount.toNat ∧
    (∀ i d, s.FieldAt i d → ∃ e, es[i]? = some e ∧ exec (.extract c d.id) s = .next (s.answered .ok e)) ∧
    exec (.serialize c) s = .next (s.answered .ok (orAll es))

/-- R86. Unpacking a serialized word, into any bank, in any later state of the same layout, gives every slot masked. -/
def Obligations.UnpackOfSerializeIsTheMaskedValues : Prop :=
  ∀ (c c' : BankSel) (s t u : State) (w : Word), s.Usable c → exec (.serialize c) s = .next t →
    t.rsp = some { code := .ok, dataOut := w } → u.Usable c' → u.layout = s.layout → u.fcount = s.fcount →
    u.wsel = s.wsel → u.bo = s.bo → u.dataIn = w →
    ∃ u' : State, exec (.unpack c') u = .next u' ∧
      ∀ i v f, s.rawSlot c.toNat i = some v → s.LayoutAt i f → u'.rawSlot c'.toNat i = some (v &&& f.mask)

/-- R87. Serializing an unpacked word gives the word, in every field order and byte order. -/
def Obligations.SerializeOfUnpackIsTheWord : Prop :=
  ∀ (c : BankSel) (s : State), s.Usable c → ∃ t : State, exec (.unpack c) s = .next t ∧
    exec (.serialize c) t = .next (t.answered .ok (trunc s.wsel.bits s.dataIn))

/-- R88. A WRITE_FIELD changes no READ_FIELD or EXTRACT of another field or bank, and changes SERIALIZE of its bank
only in the field's bits, under `T`. -/
def Obligations.WritesDoNotInterfere : Prop :=
  ∀ (c : BankSel) (s t : State) (i : Nat) (d : Descriptor) (f : FieldLayout), s.Usable c → s.FieldAt i d → s.LayoutAt i f →
    exec (.writeField c d.id) s = .next t →
    (∀ (c' : BankSel) j e, s.Usable c' → s.FieldAt j e → ¬ (c' = c ∧ j = i) →
      (∃ r, exec (.readField c' e.id) s = .next (s.answered .ok r) ∧ exec (.readField c' e.id) t = .next (t.answered .ok r)) ∧
      ∃ r, exec (.extract c' e.id) s = .next (s.answered .ok r) ∧ exec (.extract c' e.id) t = .next (t.answered .ok r)) ∧
    ∃ w w', exec (.serialize c) s = .next (s.answered .ok w) ∧ exec (.serialize c) t = .next (t.answered .ok w') ∧
      (w ^^^ w') &&& ~~~ transform s.bo s.wsel (wordMask f) = 0

/-- R89. A write followed by a read of the same field returns the value's low bits, as many as the field is wide. -/
def Obligations.ReadAfterWriteTruncates : Prop :=
  ∀ (c : BankSel) (s : State) (i : Nat) (d : Descriptor), s.Usable c → s.FieldAt i d →
    ∃ (t : State) (r : Word), exec (.writeField c d.id) s = .next t ∧
      exec (.readField c d.id) t = .next (t.answered .ok r) ∧ r.toNat = s.dataIn.toNat % 2 ^ d.width.toNat

/-- R91. In schema S1 (8-bit, widths 3, 2, 3, MSB_FIRST) the first-declared field is at the top of the word, the last
at the bottom, and setting 0b101, 0b11, 0b010 and serializing in big order yields 0b10111010. -/
def Obligations.FirstDeclaredFieldIsOnTop : Prop :=
  ∀ (c : BankSel) (s : State) (x y z : Ident), s.Usable c → s.wsel = .w8 → s.bo = .big → s.fo = .msbFirst →
    s.schema? = some [{ id := x, width := 3 }, { id := y, width := 2 }, { id := z, width := 3 }] →
    (∀ f, s.LayoutAt 0 f → wordMask f = 0b11100000) ∧ (∀ f, s.LayoutAt 2 f → wordMask f = 0b00000111) ∧
    ∃ t u v : State, exec (.writeField c x) { s with dataIn := 0b101 } = .next t ∧
      exec (.writeField c y) { t with dataIn := 0b11 } = .next u ∧ exec (.writeField c z) { u with dataIn := 0b010 } = .next v ∧
      exec (.serialize c) v = .next (v.answered .ok 0b10111010)

/-- R84. The block that masks on write gives the same responses as this one, from the same state, for every
sequence of what a host can do; their states never differ in anything observable. -/
def Obligations.MaskOnWriteGivesTheSameResponses : Prop :=
  ∀ (n : Nat) (s : State), s.Inv → ∃ s' t' : State, Sys2Proof.core.run n s = .next s' ∧ maskedCore.run n s = .next t' ∧
    t'.rsp = s'.rsp ∧ t'.taken = s'.taken ∧ SameObserved s' t'

/-! ### Runs -/

/-- A run of any commands from reset ends, with one response a command, and it is successful exactly when every
response is OK (R35, R36, R116). That a run spends two cycles a command, an offer and a taking, rests on the model's
reading of the port (log entries 2 and 3). -/
def Obligations.EveryRunEndsWithItsResponses : Prop :=
  ∀ (cfg : Config) (cs : List Command), cfg.wellFormed = true → ∃ s : State, runOf cfg cs = .next s ∧ s.Ended ∧ s.Inv ∧
    s.taken.length = cs.length ∧ (s.Successful ↔ ∀ r ∈ s.taken, r.code = .ok)

/-- The boot order makes the block usable: of every schema that passes validation, under every configuration, the
commands all answer OK and leave VALID, the schema in use, and every slot of every bank 0 (R112). The cycles of the run rest on the model's reading of the port (log entries 2
and 3). -/
def Obligations.BootOrderMakesTheBlockUsable : Prop :=
  ∀ (cfg : Config) (w : StorageWidth) (bo : ByteOrder) (fo : FieldOrder) (ds : List Descriptor),
    cfg.wellFormed = true → passes false (validate ds w) = true →
    ∃ s : State, runOf cfg (bootCommands w bo fo ds) = .next s ∧ s.Ended ∧ s.Successful ∧ s.cstate = .valid ∧
      s.wsel = w ∧ s.bo = bo ∧ s.fo = fo ∧ s.schema? = some ds ∧
      s.slot = List.replicate cfg.nCont (List.replicate ds.length 0)
end

