-- ==== Sys2Proof/Laws/State.lean ====
section
/-! SUPPORT. What each field of the state is after each named update: true by definition, so that no later proof
unfolds an update. -/

namespace Sys2Proof.Machine

variable (s : State)

/-! ### `answered` -/

@[simp] theorem answered_cfg (code : RspCode) (data : Word) : (s.answered code data).cfg = s.cfg := rfl
@[simp] theorem answered_cstate (code : RspCode) (data : Word) : (s.answered code data).cstate = s.cstate := rfl
@[simp] theorem answered_wsel (code : RspCode) (data : Word) : (s.answered code data).wsel = s.wsel := rfl
@[simp] theorem answered_bo (code : RspCode) (data : Word) : (s.answered code data).bo = s.bo := rfl
@[simp] theorem answered_fo (code : RspCode) (data : Word) : (s.answered code data).fo = s.fo := rfl
@[simp] theorem answered_fcount (code : RspCode) (data : Word) : (s.answered code data).fcount = s.fcount := rfl
@[simp] theorem answered_desc (code : RspCode) (data : Word) : (s.answered code data).desc = s.desc := rfl
@[simp] theorem answered_layout (code : RspCode) (data : Word) : (s.answered code data).layout = s.layout := rfl
@[simp] theorem answered_slot (code : RspCode) (data : Word) : (s.answered code data).slot = s.slot := rfl
@[simp] theorem answered_eCount (code : RspCode) (data : Word) : (s.answered code data).eCount = s.eCount := rfl
@[simp] theorem answered_eZero (code : RspCode) (data : Word) : (s.answered code data).eZero = s.eZero := rfl
@[simp] theorem answered_eDup (code : RspCode) (data : Word) : (s.answered code data).eDup = s.eDup := rfl
@[simp] theorem answered_eSum (code : RspCode) (data : Word) : (s.answered code data).eSum = s.eSum := rfl
@[simp] theorem answered_lastErr (code : RspCode) (data : Word) : (s.answered code data).lastErr = s.lastErr := rfl
@[simp] theorem answered_fault (code : RspCode) (data : Word) : (s.answered code data).fault = s.fault := rfl
@[simp] theorem answered_rsp (code : RspCode) (data : Word) : (s.answered code data).rsp = some { code := code, dataOut := data } := rfl
@[simp] theorem answered_dataIn (code : RspCode) (data : Word) : (s.answered code data).dataIn = s.dataIn := rfl
@[simp] theorem answered_host (code : RspCode) (data : Word) : (s.answered code data).host = s.host := rfl
@[simp] theorem answered_taken (code : RspCode) (data : Word) : (s.answered code data).taken = s.taken := rfl

/-! ### `erred` -/

@[simp] theorem erred_cfg (e : RspCode) : (s.erred e).cfg = s.cfg := rfl
@[simp] theorem erred_cstate (e : RspCode) : (s.erred e).cstate = s.cstate := rfl
@[simp] theorem erred_wsel (e : RspCode) : (s.erred e).wsel = s.wsel := rfl
@[simp] theorem erred_bo (e : RspCode) : (s.erred e).bo = s.bo := rfl
@[simp] theorem erred_fo (e : RspCode) : (s.erred e).fo = s.fo := rfl
@[simp] theorem erred_fcount (e : RspCode) : (s.erred e).fcount = s.fcount := rfl
@[simp] theorem erred_desc (e : RspCode) : (s.erred e).desc = s.desc := rfl
@[simp] theorem erred_layout (e : RspCode) : (s.erred e).layout = s.layout := rfl
@[simp] theorem erred_slot (e : RspCode) : (s.erred e).slot = s.slot := rfl
@[simp] theorem erred_eCount (e : RspCode) : (s.erred e).eCount = s.eCount := rfl
@[simp] theorem erred_eZero (e : RspCode) : (s.erred e).eZero = s.eZero := rfl
@[simp] theorem erred_eDup (e : RspCode) : (s.erred e).eDup = s.eDup := rfl
@[simp] theorem erred_eSum (e : RspCode) : (s.erred e).eSum = s.eSum := rfl
@[simp] theorem erred_lastErr (e : RspCode) : (s.erred e).lastErr = e := rfl
@[simp] theorem erred_fault (e : RspCode) : (s.erred e).fault = true := rfl
@[simp] theorem erred_rsp (e : RspCode) : (s.erred e).rsp = some { code := e, dataOut := 0 } := rfl
@[simp] theorem erred_dataIn (e : RspCode) : (s.erred e).dataIn = s.dataIn := rfl
@[simp] theorem erred_host (e : RspCode) : (s.erred e).host = s.host := rfl
@[simp] theorem erred_taken (e : RspCode) : (s.erred e).taken = s.taken := rfl

/-! ### `recordError` -/

@[simp] theorem recordError_cfg (e : RspCode) : (recordError e s).cfg = s.cfg := rfl
@[simp] theorem recordError_cstate (e : RspCode) : (recordError e s).cstate = s.cstate := rfl
@[simp] theorem recordError_wsel (e : RspCode) : (recordError e s).wsel = s.wsel := rfl
@[simp] theorem recordError_bo (e : RspCode) : (recordError e s).bo = s.bo := rfl
@[simp] theorem recordError_fo (e : RspCode) : (recordError e s).fo = s.fo := rfl
@[simp] theorem recordError_fcount (e : RspCode) : (recordError e s).fcount = s.fcount := rfl
@[simp] theorem recordError_desc (e : RspCode) : (recordError e s).desc = s.desc := rfl
@[simp] theorem recordError_layout (e : RspCode) : (recordError e s).layout = s.layout := rfl
@[simp] theorem recordError_slot (e : RspCode) : (recordError e s).slot = s.slot := rfl
@[simp] theorem recordError_eCount (e : RspCode) : (recordError e s).eCount = s.eCount := rfl
@[simp] theorem recordError_eZero (e : RspCode) : (recordError e s).eZero = s.eZero := rfl
@[simp] theorem recordError_eDup (e : RspCode) : (recordError e s).eDup = s.eDup := rfl
@[simp] theorem recordError_eSum (e : RspCode) : (recordError e s).eSum = s.eSum := rfl
@[simp] theorem recordError_lastErr (e : RspCode) : (recordError e s).lastErr = e := rfl
@[simp] theorem recordError_fault (e : RspCode) : (recordError e s).fault = true := rfl
@[simp] theorem recordError_rsp (e : RspCode) : (recordError e s).rsp = s.rsp := rfl
@[simp] theorem recordError_dataIn (e : RspCode) : (recordError e s).dataIn = s.dataIn := rfl
@[simp] theorem recordError_host (e : RspCode) : (recordError e s).host = s.host := rfl
@[simp] theorem recordError_taken (e : RspCode) : (recordError e s).taken = s.taken := rfl

/-! ### `clearSchemaFlags` -/

@[simp] theorem clearSchemaFlags_cfg : (clearSchemaFlags s).cfg = s.cfg := rfl
@[simp] theorem clearSchemaFlags_cstate : (clearSchemaFlags s).cstate = s.cstate := rfl
@[simp] theorem clearSchemaFlags_wsel : (clearSchemaFlags s).wsel = s.wsel := rfl
@[simp] theorem clearSchemaFlags_bo : (clearSchemaFlags s).bo = s.bo := rfl
@[simp] theorem clearSchemaFlags_fo : (clearSchemaFlags s).fo = s.fo := rfl
@[simp] theorem clearSchemaFlags_fcount : (clearSchemaFlags s).fcount = s.fcount := rfl
@[simp] theorem clearSchemaFlags_desc : (clearSchemaFlags s).desc = s.desc := rfl
@[simp] theorem clearSchemaFlags_layout : (clearSchemaFlags s).layout = s.layout := rfl
@[simp] theorem clearSchemaFlags_slot : (clearSchemaFlags s).slot = s.slot := rfl
@[simp] theorem clearSchemaFlags_eCount : (clearSchemaFlags s).eCount = false := rfl
@[simp] theorem clearSchemaFlags_eZero : (clearSchemaFlags s).eZero = false := rfl
@[simp] theorem clearSchemaFlags_eDup : (clearSchemaFlags s).eDup = false := rfl
@[simp] theorem clearSchemaFlags_eSum : (clearSchemaFlags s).eSum = false := rfl
@[simp] theorem clearSchemaFlags_lastErr : (clearSchemaFlags s).lastErr = s.lastErr := rfl
@[simp] theorem clearSchemaFlags_fault : (clearSchemaFlags s).fault = s.fault := rfl
@[simp] theorem clearSchemaFlags_rsp : (clearSchemaFlags s).rsp = s.rsp := rfl
@[simp] theorem clearSchemaFlags_dataIn : (clearSchemaFlags s).dataIn = s.dataIn := rfl
@[simp] theorem clearSchemaFlags_host : (clearSchemaFlags s).host = s.host := rfl
@[simp] theorem clearSchemaFlags_taken : (clearSchemaFlags s).taken = s.taken := rfl

/-! ### `setSchemaFlags` -/

@[simp] theorem setSchemaFlags_cfg (v : Verdict) : (setSchemaFlags v s).cfg = s.cfg := rfl
@[simp] theorem setSchemaFlags_cstate (v : Verdict) : (setSchemaFlags v s).cstate = s.cstate := rfl
@[simp] theorem setSchemaFlags_wsel (v : Verdict) : (setSchemaFlags v s).wsel = s.wsel := rfl
@[simp] theorem setSchemaFlags_bo (v : Verdict) : (setSchemaFlags v s).bo = s.bo := rfl
@[simp] theorem setSchemaFlags_fo (v : Verdict) : (setSchemaFlags v s).fo = s.fo := rfl
@[simp] theorem setSchemaFlags_fcount (v : Verdict) : (setSchemaFlags v s).fcount = s.fcount := rfl
@[simp] theorem setSchemaFlags_desc (v : Verdict) : (setSchemaFlags v s).desc = s.desc := rfl
@[simp] theorem setSchemaFlags_layout (v : Verdict) : (setSchemaFlags v s).layout = s.layout := rfl
@[simp] theorem setSchemaFlags_slot (v : Verdict) : (setSchemaFlags v s).slot = s.slot := rfl
@[simp] theorem setSchemaFlags_eCount (v : Verdict) : (setSchemaFlags v s).eCount = s.eCount := rfl
@[simp] theorem setSchemaFlags_eZero (v : Verdict) : (setSchemaFlags v s).eZero = v.zero := rfl
@[simp] theorem setSchemaFlags_eDup (v : Verdict) : (setSchemaFlags v s).eDup = v.dup := rfl
@[simp] theorem setSchemaFlags_eSum (v : Verdict) : (setSchemaFlags v s).eSum = v.badSum := rfl
@[simp] theorem setSchemaFlags_lastErr (v : Verdict) : (setSchemaFlags v s).lastErr = s.lastErr := rfl
@[simp] theorem setSchemaFlags_fault (v : Verdict) : (setSchemaFlags v s).fault = s.fault := rfl
@[simp] theorem setSchemaFlags_rsp (v : Verdict) : (setSchemaFlags v s).rsp = s.rsp := rfl
@[simp] theorem setSchemaFlags_dataIn (v : Verdict) : (setSchemaFlags v s).dataIn = s.dataIn := rfl
@[simp] theorem setSchemaFlags_host (v : Verdict) : (setSchemaFlags v s).host = s.host := rfl
@[simp] theorem setSchemaFlags_taken (v : Verdict) : (setSchemaFlags v s).taken = s.taken := rfl

/-! ### `setBank` -/

@[simp] theorem setBank_cfg (c : BankSel) (b : List Word) : (setBank c b s).cfg = s.cfg := rfl
@[simp] theorem setBank_cstate (c : BankSel) (b : List Word) : (setBank c b s).cstate = s.cstate := rfl
@[simp] theorem setBank_wsel (c : BankSel) (b : List Word) : (setBank c b s).wsel = s.wsel := rfl
@[simp] theorem setBank_bo (c : BankSel) (b : List Word) : (setBank c b s).bo = s.bo := rfl
@[simp] theorem setBank_fo (c : BankSel) (b : List Word) : (setBank c b s).fo = s.fo := rfl
@[simp] theorem setBank_fcount (c : BankSel) (b : List Word) : (setBank c b s).fcount = s.fcount := rfl
@[simp] theorem setBank_desc (c : BankSel) (b : List Word) : (setBank c b s).desc = s.desc := rfl
@[simp] theorem setBank_layout (c : BankSel) (b : List Word) : (setBank c b s).layout = s.layout := rfl
@[simp] theorem setBank_slot (c : BankSel) (b : List Word) : (setBank c b s).slot = s.slot.set c.toNat b := rfl
@[simp] theorem setBank_eCount (c : BankSel) (b : List Word) : (setBank c b s).eCount = s.eCount := rfl
@[simp] theorem setBank_eZero (c : BankSel) (b : List Word) : (setBank c b s).eZero = s.eZero := rfl
@[simp] theorem setBank_eDup (c : BankSel) (b : List Word) : (setBank c b s).eDup = s.eDup := rfl
@[simp] theorem setBank_eSum (c : BankSel) (b : List Word) : (setBank c b s).eSum = s.eSum := rfl
@[simp] theorem setBank_lastErr (c : BankSel) (b : List Word) : (setBank c b s).lastErr = s.lastErr := rfl
@[simp] theorem setBank_fault (c : BankSel) (b : List Word) : (setBank c b s).fault = s.fault := rfl
@[simp] theorem setBank_rsp (c : BankSel) (b : List Word) : (setBank c b s).rsp = s.rsp := rfl
@[simp] theorem setBank_dataIn (c : BankSel) (b : List Word) : (setBank c b s).dataIn = s.dataIn := rfl
@[simp] theorem setBank_host (c : BankSel) (b : List Word) : (setBank c b s).host = s.host := rfl
@[simp] theorem setBank_taken (c : BankSel) (b : List Word) : (setBank c b s).taken = s.taken := rfl

/-! ### `commitSchema` -/

@[simp] theorem commitSchema_cfg (ds : List Descriptor) : (commitSchema ds s).cfg = s.cfg := rfl
@[simp] theorem commitSchema_cstate (ds : List Descriptor) : (commitSchema ds s).cstate = .valid := rfl
@[simp] theorem commitSchema_wsel (ds : List Descriptor) : (commitSchema ds s).wsel = s.wsel := rfl
@[simp] theorem commitSchema_bo (ds : List Descriptor) : (commitSchema ds s).bo = s.bo := rfl
@[simp] theorem commitSchema_fo (ds : List Descriptor) : (commitSchema ds s).fo = s.fo := rfl
@[simp] theorem commitSchema_fcount (ds : List Descriptor) : (commitSchema ds s).fcount = s.fcount := rfl
@[simp] theorem commitSchema_desc (ds : List Descriptor) : (commitSchema ds s).desc = s.desc := rfl
@[simp] theorem commitSchema_layout (ds : List Descriptor) : (commitSchema ds s).layout = some (layoutOf s.fo ds) := rfl
@[simp] theorem commitSchema_slot (ds : List Descriptor) : (commitSchema ds s).slot = emptyBanks s := rfl
@[simp] theorem commitSchema_eCount (ds : List Descriptor) : (commitSchema ds s).eCount = s.eCount := rfl
@[simp] theorem commitSchema_eZero (ds : List Descriptor) : (commitSchema ds s).eZero = s.eZero := rfl
@[simp] theorem commitSchema_eDup (ds : List Descriptor) : (commitSchema ds s).eDup = s.eDup := rfl
@[simp] theorem commitSchema_eSum (ds : List Descriptor) : (commitSchema ds s).eSum = s.eSum := rfl
@[simp] theorem commitSchema_lastErr (ds : List Descriptor) : (commitSchema ds s).lastErr = s.lastErr := rfl
@[simp] theorem commitSchema_fault (ds : List Descriptor) : (commitSchema ds s).fault = s.fault := rfl
@[simp] theorem commitSchema_rsp (ds : List Descriptor) : (commitSchema ds s).rsp = s.rsp := rfl
@[simp] theorem commitSchema_dataIn (ds : List Descriptor) : (commitSchema ds s).dataIn = s.dataIn := rfl
@[simp] theorem commitSchema_host (ds : List Descriptor) : (commitSchema ds s).host = s.host := rfl
@[simp] theorem commitSchema_taken (ds : List Descriptor) : (commitSchema ds s).taken = s.taken := rfl

/-! ### `rejectSchema` -/

@[simp] theorem rejectSchema_cfg (v : Verdict) : (rejectSchema v s).cfg = s.cfg := rfl
@[simp] theorem rejectSchema_cstate (v : Verdict) : (rejectSchema v s).cstate = .error := rfl
@[simp] theorem rejectSchema_wsel (v : Verdict) : (rejectSchema v s).wsel = s.wsel := rfl
@[simp] theorem rejectSchema_bo (v : Verdict) : (rejectSchema v s).bo = s.bo := rfl
@[simp] theorem rejectSchema_fo (v : Verdict) : (rejectSchema v s).fo = s.fo := rfl
@[simp] theorem rejectSchema_fcount (v : Verdict) : (rejectSchema v s).fcount = s.fcount := rfl
@[simp] theorem rejectSchema_desc (v : Verdict) : (rejectSchema v s).desc = s.desc := rfl
@[simp] theorem rejectSchema_layout (v : Verdict) : (rejectSchema v s).layout = s.layout := rfl
@[simp] theorem rejectSchema_slot (v : Verdict) : (rejectSchema v s).slot = s.slot := rfl
@[simp] theorem rejectSchema_eCount (v : Verdict) : (rejectSchema v s).eCount = s.eCount := rfl
@[simp] theorem rejectSchema_eZero (v : Verdict) : (rejectSchema v s).eZero = v.zero := rfl
@[simp] theorem rejectSchema_eDup (v : Verdict) : (rejectSchema v s).eDup = v.dup := rfl
@[simp] theorem rejectSchema_eSum (v : Verdict) : (rejectSchema v s).eSum = v.badSum := rfl
@[simp] theorem rejectSchema_lastErr (v : Verdict) : (rejectSchema v s).lastErr = s.lastErr := rfl
@[simp] theorem rejectSchema_fault (v : Verdict) : (rejectSchema v s).fault = s.fault := rfl
@[simp] theorem rejectSchema_rsp (v : Verdict) : (rejectSchema v s).rsp = s.rsp := rfl
@[simp] theorem rejectSchema_dataIn (v : Verdict) : (rejectSchema v s).dataIn = s.dataIn := rfl
@[simp] theorem rejectSchema_host (v : Verdict) : (rejectSchema v s).host = s.host := rfl
@[simp] theorem rejectSchema_taken (v : Verdict) : (rejectSchema v s).taken = s.taken := rfl

/-! ### `takeResponse` -/

@[simp] theorem takeResponse_cfg (r : Response) : (takeResponse r s).cfg = s.cfg := rfl
@[simp] theorem takeResponse_cstate (r : Response) : (takeResponse r s).cstate = s.cstate := rfl
@[simp] theorem takeResponse_wsel (r : Response) : (takeResponse r s).wsel = s.wsel := rfl
@[simp] theorem takeResponse_bo (r : Response) : (takeResponse r s).bo = s.bo := rfl
@[simp] theorem takeResponse_fo (r : Response) : (takeResponse r s).fo = s.fo := rfl
@[simp] theorem takeResponse_fcount (r : Response) : (takeResponse r s).fcount = s.fcount := rfl
@[simp] theorem takeResponse_desc (r : Response) : (takeResponse r s).desc = s.desc := rfl
@[simp] theorem takeResponse_layout (r : Response) : (takeResponse r s).layout = s.layout := rfl
@[simp] theorem takeResponse_slot (r : Response) : (takeResponse r s).slot = s.slot := rfl
@[simp] theorem takeResponse_eCount (r : Response) : (takeResponse r s).eCount = s.eCount := rfl
@[simp] theorem takeResponse_eZero (r : Response) : (takeResponse r s).eZero = s.eZero := rfl
@[simp] theorem takeResponse_eDup (r : Response) : (takeResponse r s).eDup = s.eDup := rfl
@[simp] theorem takeResponse_eSum (r : Response) : (takeResponse r s).eSum = s.eSum := rfl
@[simp] theorem takeResponse_lastErr (r : Response) : (takeResponse r s).lastErr = s.lastErr := rfl
@[simp] theorem takeResponse_fault (r : Response) : (takeResponse r s).fault = s.fault := rfl
@[simp] theorem takeResponse_rsp (r : Response) : (takeResponse r s).rsp = none := rfl
@[simp] theorem takeResponse_dataIn (r : Response) : (takeResponse r s).dataIn = s.dataIn := rfl
@[simp] theorem takeResponse_host (r : Response) : (takeResponse r s).host = s.host := rfl
@[simp] theorem takeResponse_taken (r : Response) : (takeResponse r s).taken = s.taken ++ [r] := rfl

/-! ### `resetBlock` -/

@[simp] theorem resetBlock_cfg : (resetBlock s).cfg = s.cfg := rfl
@[simp] theorem resetBlock_cstate : (resetBlock s).cstate = .unconfigured := rfl
@[simp] theorem resetBlock_wsel : (resetBlock s).wsel = .w8 := rfl
@[simp] theorem resetBlock_bo : (resetBlock s).bo = .big := rfl
@[simp] theorem resetBlock_fo : (resetBlock s).fo = .msbFirst := rfl
@[simp] theorem resetBlock_fcount : (resetBlock s).fcount = 0 := rfl
@[simp] theorem resetBlock_desc : (resetBlock s).desc = Vector.replicate maxFields none := rfl
@[simp] theorem resetBlock_layout : (resetBlock s).layout = none := rfl
@[simp] theorem resetBlock_slot : (resetBlock s).slot = [] := rfl
@[simp] theorem resetBlock_eCount : (resetBlock s).eCount = false := rfl
@[simp] theorem resetBlock_eZero : (resetBlock s).eZero = false := rfl
@[simp] theorem resetBlock_eDup : (resetBlock s).eDup = false := rfl
@[simp] theorem resetBlock_eSum : (resetBlock s).eSum = false := rfl
@[simp] theorem resetBlock_lastErr : (resetBlock s).lastErr = .ok := rfl
@[simp] theorem resetBlock_fault : (resetBlock s).fault = false := rfl
@[simp] theorem resetBlock_rsp : (resetBlock s).rsp = none := rfl
@[simp] theorem resetBlock_dataIn : (resetBlock s).dataIn = 0 := rfl
@[simp] theorem resetBlock_host : (resetBlock s).host = s.host := rfl
@[simp] theorem resetBlock_taken : (resetBlock s).taken = [] := rfl

end Sys2Proof.Machine
end

