-- ==== Sys2Proof/Laws/Ops.lean ====
section
/-! SUPPORT. Everything a shared operation can do, said once: when it answers a next state, and which. The
provers cite these instead of unfolding the operation. -/

namespace Sys2Proof.Machine

open Sys2Proof

variable {s t : State}

/-! ### Responses -/

theorem respond_eq (code : RspCode) (data : Word) (s : State) : respond code data s = .next (s.answered code data) := rfl

theorem raise_eq (e : RspCode) (s : State) : raise e s = .next (s.erred e) := rfl

@[simp] theorem next_inj {s t : State} : (Host.Outcome.next s : Result) = .next t ↔ t = s := by
  constructor
  · intro h; cases h; rfl
  · rintro rfl; rfl

@[simp] theorem respond_next (code : RspCode) (data : Word) : respond code data s = .next t ↔ t = s.answered code data := by
  rw [respond_eq, next_inj]

@[simp] theorem raise_next (e : RspCode) : raise e s = .next t ↔ t = s.erred e := by rw [raise_eq, next_inj]

/-! ### The checks -/

/-- Check 2 lets the command go on, or answers ERR_STATE. -/
@[simp] theorem requireState_next (allowed : CState → Bool) (body : Result) :
    requireState allowed s body = .next t ↔
      (allowed s.cstate = true ∧ body = .next t) ∨ (allowed s.cstate = false ∧ t = s.erred .errState) := by
  unfold requireState
  cases allowed s.cstate <;> simp

/-- Check 3 lets the command go on, or answers ERR_CSEL. -/
@[simp] theorem requireBank_next (c : BankSel) (body : Result) :
    requireBank c s body = .next t ↔
      (c.toNat < s.cfg.nCont ∧ body = .next t) ∨ (s.cfg.nCont ≤ c.toNat ∧ t = s.erred .errCsel) := by
  unfold requireBank
  split
  · simp_all
  · simp_all

/-- Check 4 lets the command go on with the field's index, or answers ERR_NO_FIELD. -/
@[simp] theorem requireField_next (id : Ident) (body : Nat → Result) :
    requireField id s body = .next t ↔ ∃ ds, s.schema? = some ds ∧
      ((∃ i, fieldIndex ds id = some i ∧ body i = .next t) ∨ (fieldIndex ds id = none ∧ t = s.erred .errNoField)) := by
  unfold requireField
  cases s.schema? with
  | none => simp
  | some ds => cases h : fieldIndex ds id <;> simp [h]

/-! ### The reads -/

@[simp] theorem withLayout_next (body : List FieldLayout → Result) :
    withLayout s body = .next t ↔ ∃ fs, s.fieldLayouts? = some fs ∧ body fs = .next t := by
  unfold withLayout
  cases s.fieldLayouts? <;> simp

@[simp] theorem withFieldLayout_next (i : Nat) (body : FieldLayout → Result) :
    withFieldLayout i s body = .next t ↔ ∃ fs f, s.fieldLayouts? = some fs ∧ fs[i]? = some f ∧ body f = .next t := by
  unfold withFieldLayout
  rw [withLayout_next]
  constructor
  · rintro ⟨fs, h, hb⟩
    cases hf : fs[i]? with
    | none => simp [hf] at hb
    | some f => exact ⟨fs, f, h, hf, by simpa [hf] using hb⟩
  · rintro ⟨fs, f, h, hf, hb⟩
    exact ⟨fs, h, by simpa [hf] using hb⟩

@[simp] theorem withBank_next (c : BankSel) (body : List Word → Result) :
    withBank c s body = .next t ↔ ∃ b, s.bank? c.toNat = some b ∧ body b = .next t := by
  unfold withBank
  cases s.bank? c.toNat <;> simp

@[simp] theorem withSlot_next (c : BankSel) (i : Nat) (body : Word → Result) :
    withSlot c i s body = .next t ↔ ∃ b v, s.bank? c.toNat = some b ∧ b[i]? = some v ∧ body v = .next t := by
  unfold withSlot
  rw [withBank_next]
  constructor
  · rintro ⟨b, h, hb⟩
    cases hv : b[i]? with
    | none => simp [hv] at hb
    | some v => exact ⟨b, v, h, hv, by simpa [hv] using hb⟩
  · rintro ⟨b, v, h, hv, hb⟩
    exact ⟨b, h, by simpa [hv] using hb⟩

/-! ### Operands -/

theorem firstEntries_eq_some {α : Type} {n : Nat} {xs ys : List α} :
    firstEntries n xs = some ys ↔ n ≤ xs.length ∧ ys = xs.take n := by
  unfold firstEntries
  split <;> simp_all [eq_comm]

theorem firstEntries_length {α : Type} {n : Nat} {xs ys : List α} (h : firstEntries n xs = some ys) : ys.length = n := by
  obtain ⟨hn, rfl⟩ := firstEntries_eq_some.mp h
  simp [hn]

/-- A list has all its values exactly when it is the list of them. -/
theorem allValues_eq_some {α : Type} {xs : List (Option α)} {ys : List α} : allValues xs = some ys ↔ xs = ys.map some := by
  induction xs generalizing ys with
  | nil => cases ys <;> simp [allValues]
  | cons x xs ih =>
    cases x with
    | none => cases ys <;> simp [allValues]
    | some a =>
      cases ys with
      | nil => simp [allValues]
      | cons y ys =>
        simp only [allValues, Option.map_eq_some_iff, List.map_cons, List.cons.injEq, Option.some.injEq]
        constructor
        · rintro ⟨zs, hz, rfl, rfl⟩; exact ⟨rfl, ih.mp hz⟩
        · rintro ⟨rfl, h⟩; exact ⟨ys, ih.mpr h, rfl, rfl⟩

/-- The schema in use: its descriptors stand in the first FCOUNT entries of the store. -/
theorem schema_eq_some {ds : List Descriptor} :
    s.schema? = some ds ↔ s.fcount.toNat ≤ maxFields ∧ s.desc.toList.take s.fcount.toNat = ds.map some := by
  unfold State.schema?
  simp only [Option.bind_eq_some_iff, firstEntries_eq_some, allValues_eq_some, Vector.length_toList]
  constructor
  · rintro ⟨_, ⟨h, rfl⟩, h'⟩; exact ⟨h, h'⟩
  · rintro ⟨h, h'⟩; exact ⟨_, ⟨h, rfl⟩, h'⟩

theorem schema_length {ds : List Descriptor} (h : s.schema? = some ds) : ds.length = s.fcount.toNat := by
  obtain ⟨hn, h'⟩ := schema_eq_some.mp h
  have := congrArg List.length h'
  simp only [List.length_take, Vector.length_toList, List.length_map] at this
  omega

/-- The field index is of a field with that identifier, and no field before it has it. -/
theorem fieldIndex_eq_some {ds : List Descriptor} {id : Ident} {i : Nat} :
    fieldIndex ds id = some i ↔ ∃ h : i < ds.length, ds[i].id = id ∧ ∀ j (_ : j < i), ds[j].id ≠ id := by
  unfold fieldIndex
  rw [List.findIdx?_eq_some_iff_getElem]
  simp

theorem fieldIndex_eq_none {ds : List Descriptor} {id : Ident} : fieldIndex ds id = none ↔ ∀ d ∈ ds, d.id ≠ id := by
  unfold fieldIndex
  simp [List.findIdx?_eq_none_iff]

theorem bank_eq_some {c : Nat} {b : List Word} :
    s.bank? c = some b ↔ ∃ r, s.slot[c]? = some r ∧ s.fcount.toNat ≤ r.length ∧ b = r.take s.fcount.toNat := by
  simp only [State.bank?, Option.bind_eq_some_iff, firstEntries_eq_some]

theorem fieldLayouts_eq_some {fs : List FieldLayout} :
    s.fieldLayouts? = some fs ↔ ∃ l, s.layout = some l ∧ s.fcount.toNat ≤ l.fields.length ∧ fs = l.fields.take s.fcount.toNat := by
  simp only [State.fieldLayouts?, Option.bind_eq_some_iff, firstEntries_eq_some]

end Sys2Proof.Machine
end

