-- ==== Sys2Proof/Laws/Bits.lean ====
section
/-! SUPPORT. The datapath bit by bit and as numbers: `ones`, `trunc`, `orAll`, a field's mask and projection, and
the bytes that `T` moves. -/

namespace Sys2Proof.Machine

open Sys2Proof

/-! ### `ones` and `trunc` -/

theorem ones_toNat {n : Nat} (h : n ≤ 64) : (ones n).toNat = 2 ^ n - 1 := by
  have : 2 ^ n ≤ 2 ^ 64 := Nat.pow_le_pow_right (by norm_num) h
  have : 0 < 2 ^ n := Nat.two_pow_pos n
  simp only [ones, BitVec.toNat_ofNat]
  omega

theorem getLsbD_ones {n : Nat} (h : n ≤ 64) (k : Nat) : (ones n).getLsbD k = decide (k < n) := by
  rw [BitVec.getLsbD, ones_toNat h, Nat.testBit_two_pow_sub_one]

theorem trunc_toNat {n : Nat} (h : n ≤ 64) (v : Word) : (trunc n v).toNat = v.toNat % 2 ^ n := by
  rw [trunc, BitVec.toNat_and, ones_toNat h, Nat.and_two_pow_sub_one_eq_mod]

theorem getLsbD_trunc {n : Nat} (h : n ≤ 64) (v : Word) (k : Nat) :
    (trunc n v).getLsbD k = (v.getLsbD k && decide (k < n)) := by
  rw [trunc, BitVec.getLsbD_and, getLsbD_ones h]

/-- A word is of `n` bits when it has no bit from `n` up. -/
theorem trunc_eq_self {n : Nat} (h : n ≤ 64) {v : Word} : trunc n v = v ↔ ∀ k, n ≤ k → v.getLsbD k = false := by
  constructor
  · intro hv k hk
    rw [← hv, getLsbD_trunc h]
    simp; omega
  · intro hv
    apply BitVec.eq_of_getLsbD_eq
    intro k _
    rw [getLsbD_trunc h]
    by_cases hk : k < n
    · simp [hk]
    · simp [hk, hv k (by omega)]

theorem trunc_eq_self_iff_lt {n : Nat} (h : n ≤ 64) {v : Word} : trunc n v = v ↔ v.toNat < 2 ^ n := by
  constructor
  · intro hv
    rw [← hv, trunc_toNat h]
    exact Nat.mod_lt _ (Nat.two_pow_pos n)
  · intro hv
    apply BitVec.eq_of_toNat_eq
    rw [trunc_toNat h, Nat.mod_eq_of_lt hv]

@[simp] theorem trunc_trunc (n : Nat) (v : Word) : trunc n (trunc n v) = trunc n v := by simp [trunc, BitVec.and_assoc]

@[simp] theorem trunc_zero (n : Nat) : trunc n 0#64 = 0#64 := by simp [trunc]

theorem bits_le (w : StorageWidth) : w.bits ≤ 64 := by cases w <;> decide

theorem bits_pos (w : StorageWidth) : 0 < w.bits := by cases w <;> decide

/-! ### `orAll` -/

@[simp] theorem orAll_nil : orAll [] = 0 := rfl

@[simp] theorem orAll_cons (a : Word) (ws : List Word) : orAll (a :: ws) = a ||| orAll ws := rfl

/-- A bit of the OR is a bit of one of the words. -/
theorem getLsbD_orAll (ws : List Word) (k : Nat) : (orAll ws).getLsbD k = true ↔ ∃ a ∈ ws, a.getLsbD k = true := by
  induction ws with
  | nil => simp
  | cons a ws ih => simp [ih]

/-! ### A field in a word -/

/-- The layout entry of a field of width `w` at shift `sh`. -/
abbrev FieldLayout.Is (f : FieldLayout) (sh w : Nat) : Prop := f.shift.toNat = sh ∧ f.mask = ones w ∧ w ≤ 64

theorem getLsbD_wordMask {f : FieldLayout} {sh w : Nat} (h : f.Is sh w) (k : Nat) :
    (wordMask f).getLsbD k = (decide (k < 64) && decide (sh ≤ k) && decide (k < sh + w)) := by
  obtain ⟨rfl, hm, hw⟩ := h
  rw [wordMask, BitVec.getLsbD_shiftLeft, hm, getLsbD_ones hw]
  rw [Bool.eq_iff_iff]
  simp only [Bool.and_eq_true, Bool.not_eq_true', decide_eq_true_eq, decide_eq_false_iff_not]
  omega

theorem getLsbD_observed {f : FieldLayout} {sh w : Nat} (h : f.Is sh w) (v : Word) (k : Nat) :
    (observed f v).getLsbD k = (v.getLsbD k && decide (k < w)) := by
  obtain ⟨-, hm, hw⟩ := h
  rw [observed, BitVec.getLsbD_and, hm, getLsbD_ones hw]

theorem observed_eq_trunc {f : FieldLayout} {sh w : Nat} (h : f.Is sh w) (v : Word) : observed f v = trunc w v := by
  rw [observed, h.2.1, trunc]

@[simp] theorem observed_observed (f : FieldLayout) (v : Word) : observed f (observed f v) = observed f v := by
  simp [observed, BitVec.and_assoc]

theorem getLsbD_project {f : FieldLayout} {sh w : Nat} (h : f.Is sh w) (v : Word) (k : Nat) :
    (project f v).getLsbD k = (decide (k < 64) && decide (sh ≤ k) && decide (k < sh + w) && v.getLsbD (k - sh)) := by
  rw [project, BitVec.getLsbD_shiftLeft, getLsbD_observed h, h.1]
  by_cases h2 : sh ≤ k
  · have h3 : k - sh < w ↔ k < sh + w := by omega
    have h4 : ¬ k < sh := by omega
    simp [h2, h3, h4, Bool.and_comm, Bool.and_left_comm, Bool.and_assoc]
  · have h4 : k < sh := by omega
    simp [h2, h4]

theorem getLsbD_takeField {f : FieldLayout} {sh w : Nat} (h : f.Is sh w) (hs : sh + w ≤ 64) (r : Word) (k : Nat) :
    (takeField r f).getLsbD k = (r.getLsbD (sh + k) && decide (k < w)) := by
  rw [takeField, BitVec.getLsbD_ushiftRight, BitVec.getLsbD_and, getLsbD_wordMask h, h.1]
  by_cases h1 : k < w
  · have : sh + k < 64 := by omega
    simp [h1, this]
  · simp [h1]

/-- A field's value out of a word, as numbers. -/
theorem takeField_toNat {f : FieldLayout} {sh w : Nat} (h : f.Is sh w) (hs : sh + w ≤ 64) (r : Word) :
    (takeField r f).toNat = r.toNat / 2 ^ sh % 2 ^ w := by
  apply Nat.eq_of_testBit_eq
  intro k
  have := getLsbD_takeField h hs r k
  rw [BitVec.getLsbD, BitVec.getLsbD] at this
  rw [this, Nat.testBit_mod_two_pow, Nat.testBit_div_two_pow, Bool.and_comm, Nat.add_comm]

/-- A field's projection, as numbers: nothing is lost, since the field ends inside the word. -/
theorem project_toNat {f : FieldLayout} {sh w : Nat} (h : f.Is sh w) (hs : sh + w ≤ 64) (v : Word) :
    (project f v).toNat = v.toNat % 2 ^ w * 2 ^ sh := by
  have hlt : v.toNat % 2 ^ w * 2 ^ sh < 2 ^ 64 :=
    calc v.toNat % 2 ^ w * 2 ^ sh < 2 ^ w * 2 ^ sh :=
          Nat.mul_lt_mul_of_pos_right (Nat.mod_lt _ (Nat.two_pow_pos w)) (Nat.two_pow_pos sh)
      _ = 2 ^ (sh + w) := by rw [Nat.pow_add, Nat.mul_comm]
      _ ≤ 2 ^ 64 := Nat.pow_le_pow_right (by norm_num) hs
  rw [project, observed_eq_trunc h, BitVec.toNat_shiftLeft, trunc_toNat h.2.2, h.1, Nat.shiftLeft_eq, Nat.mod_eq_of_lt hlt]

/-! ### The bytes `T` moves -/

theorem getLsbD_moveByte {n j : Nat} (hn : n ≤ 8) (v : Word) (hj : j < n) (k : Nat) :
    (moveByte n v j).getLsbD k = (decide (k / 8 = n - 1 - j) && v.getLsbD (8 * j + k % 8)) := by
  have hff : ∀ m, (0xFF#64 : BitVec 64).getLsbD m = decide (m < 8) := fun m => getLsbD_ones (n := 8) (by norm_num) m
  rw [moveByte, BitVec.getLsbD_shiftLeft, BitVec.getLsbD_and, BitVec.getLsbD_ushiftRight, hff]
  by_cases h : k / 8 = n - 1 - j
  · have h1 : k < 64 := by omega
    have h2 : ¬ k < 8 * (n - 1 - j) := by omega
    have h3 : k - 8 * (n - 1 - j) < 8 := by omega
    have h4 : k - 8 * (n - 1 - j) = k % 8 := by omega
    simp [h, h1, h2, h4, Nat.mod_lt]
  · by_cases h2 : k < 8 * (n - 1 - j)
    · simp [h, h2]
    · have h3 : ¬ k - 8 * (n - 1 - j) < 8 := by omega
      simp [h, h3]

/-- Bit `k` of the reversed word is the bit of the byte that mirrors its byte. -/
theorem getLsbD_reverseBytes {n : Nat} (hn : n ≤ 8) (v : Word) (k : Nat) :
    (reverseBytes n v).getLsbD k = (decide (k < 8 * n) && v.getLsbD (8 * (n - 1 - k / 8) + k % 8)) := by
  rw [Bool.eq_iff_iff, reverseBytes, getLsbD_orAll]
  constructor
  · rintro ⟨a, ha, hk⟩
    obtain ⟨j, hj, rfl⟩ := List.mem_map.mp ha
    rw [List.mem_range] at hj
    rw [getLsbD_moveByte hn v hj] at hk
    simp only [Bool.and_eq_true, decide_eq_true_eq] at hk ⊢
    refine ⟨by omega, ?_⟩
    have : n - 1 - k / 8 = j := by omega
    rw [this]; exact hk.2
  · intro hk
    simp only [Bool.and_eq_true, decide_eq_true_eq] at hk
    refine ⟨moveByte n v (n - 1 - k / 8), List.mem_map.mpr ⟨_, List.mem_range.mpr (by omega), rfl⟩, ?_⟩
    rw [getLsbD_moveByte hn v (by omega)]
    simp only [Bool.and_eq_true, decide_eq_true_eq]
    exact ⟨by omega, hk.2⟩

/-- The bytes of a storage width are at most eight, and they make up its bits. -/
theorem bytes_le (w : StorageWidth) : w.bits / 8 ≤ 8 ∧ 8 * (w.bits / 8) = w.bits := by cases w <;> decide

/-- `T` permutes bits, so it commutes with OR. -/
theorem transform_or (bo : ByteOrder) (w : StorageWidth) (a b : Word) :
    transform bo w (a ||| b) = transform bo w a ||| transform bo w b := by
  cases bo
  · rfl
  · apply BitVec.eq_of_getLsbD_eq
    intro k _
    simp [transform, getLsbD_reverseBytes (bytes_le w).1, Bool.and_or_distrib_left]

@[simp] theorem transform_zero (bo : ByteOrder) (w : StorageWidth) : transform bo w 0#64 = 0#64 := by
  cases bo
  · rfl
  · cases w <;> decide

/-- `T` of a word is a word of the same width. -/
theorem transform_width (bo : ByteOrder) (w : StorageWidth) {v : Word} (h : trunc w.bits v = v) :
    trunc w.bits (transform bo w v) = transform bo w v := by
  cases bo
  · exact h
  · rw [trunc_eq_self (bits_le w)]
    intro k hk
    rw [transform, getLsbD_reverseBytes (bytes_le w).1]
    have := (bytes_le w).2
    simp; omega

end Sys2Proof.Machine
end

