-- ==== Sys2Proof/Laws/Layout.lean ====
section
/-! SUPPORT. The layout algorithm: where the fields of a schema lie, in both field orders, and what packing and
unpacking do with a schema whose widths fill the word. -/

namespace Sys2Proof.Machine

open Sys2Proof

/-! ### Sums of widths -/

theorem sum_split (ws : List Nat) {i : Nat} (h : i < ws.length) :
    ws.sum = (ws.take i).sum + ws[i] + (ws.drop (i + 1)).sum := by
  conv_lhs => rw [← List.take_append_drop i ws, List.sum_append, List.drop_eq_getElem_cons h, List.sum_cons]
  omega

theorem sum_take_succ (ws : List Nat) {i : Nat} (h : i < ws.length) : (ws.take (i + 1)).sum = (ws.take i).sum + ws[i] := by
  rw [List.take_succ_eq_append_getElem h, List.sum_append, List.sum_singleton]

theorem sum_take_mono (ws : List Nat) {a b : Nat} (h : a ≤ b) : (ws.take a).sum ≤ (ws.take b).sum := by
  have : ws.take b = (ws.take b).take a ++ (ws.take b).drop a := (List.take_append_drop a _).symm
  rw [this, List.sum_append, List.take_take, Nat.min_eq_left h]
  omega

/-- A field ends inside the widths' sum. -/
theorem shiftOf_add_le (fo : FieldOrder) (ws : List Nat) {i : Nat} (h : i < ws.length) :
    shiftOf fo ws i + ws[i] ≤ ws.sum := by
  have := sum_split ws h
  cases fo <;> simp only [shiftOf] <;> omega

/-- Two fields do not overlap. -/
theorem shiftOf_disjoint (fo : FieldOrder) (ws : List Nat) {i j : Nat} (hi : i < ws.length) (hj : j < ws.length) (h : i < j) :
    match fo with
    | .msbFirst => shiftOf fo ws j + ws[j] ≤ shiftOf fo ws i
    | .lsbFirst => shiftOf fo ws i + ws[i] ≤ shiftOf fo ws j := by
  have h1 := sum_take_mono ws (show i + 1 ≤ j from h)
  have h2 := sum_take_succ ws hi
  have h3 := sum_split ws hi
  have h4 := sum_split ws hj
  cases fo <;> simp only [shiftOf] <;> omega

/-- Every bit below the widths' sum lies in a field. -/
theorem shiftOf_cover (fo : FieldOrder) (ws : List Nat) {k : Nat} (h : k < ws.sum) :
    ∃ i, ∃ hi : i < ws.length, shiftOf fo ws i ≤ k ∧ k < shiftOf fo ws i + ws[i] := by
  induction ws generalizing k with
  | nil => simp at h
  | cons w ws ih =>
    rw [List.sum_cons] at h
    cases fo with
    | msbFirst =>
      by_cases hk : k < ws.sum
      · obtain ⟨i, hi, h1, h2⟩ := ih hk
        exact ⟨i + 1, by simpa using hi, by simpa [shiftOf] using h1, by simpa [shiftOf] using h2⟩
      · exact ⟨0, by simp, by simp [shiftOf]; omega, by simp [shiftOf]; omega⟩
    | lsbFirst =>
      by_cases hk : k < w
      · exact ⟨0, by simp, by simp [shiftOf], by simpa [shiftOf] using hk⟩
      · obtain ⟨i, hi, h1, h2⟩ := ih (show k - w < ws.sum by omega)
        simp only [shiftOf] at h1 h2
        exact ⟨i + 1, by simpa using hi, by simp [shiftOf]; omega, by simp [shiftOf]; omega⟩

/-! ### Schemas that fill the word -/

/-- The widths are positive and fill a word of `n` bits: what validation makes sure of (R68). -/
structure Fills (ws : List Nat) (n : Nat) : Prop where
  pos : ∀ w ∈ ws, 0 < w
  sum : ws.sum = n
  le : n ≤ 64

namespace Fills

variable {ws : List Nat} {n : Nat}

theorem width_pos (h : Fills ws n) {i : Nat} (hi : i < ws.length) : 0 < ws[i] := h.pos _ (List.getElem_mem hi)

theorem width_le (h : Fills ws n) (fo : FieldOrder) {i : Nat} (hi : i < ws.length) : shiftOf fo ws i + ws[i] ≤ n := by
  have := shiftOf_add_le fo ws hi
  rwa [h.sum] at this

end Fills

@[simp] theorem fieldLayoutsOf_length (fo : FieldOrder) (ws : List Nat) : (fieldLayoutsOf fo ws).length = ws.length := by
  simp [fieldLayoutsOf]

theorem fieldLayoutsOf_getElem? (fo : FieldOrder) (ws : List Nat) (i : Nat) :
    (fieldLayoutsOf fo ws)[i]? = ws[i]?.map fun w => { shift := BitVec.ofNat 6 (shiftOf fo ws i), mask := ones w } := by
  simp [fieldLayoutsOf]

/-- Each entry of a layout is of its field's width, at its field's shift. -/
theorem fieldLayoutsOf_is {ws : List Nat} {n : Nat} (h : Fills ws n) (fo : FieldOrder) {i : Nat} {f : FieldLayout}
    (hf : (fieldLayoutsOf fo ws)[i]? = some f) :
    ∃ hi : i < ws.length, f.Is (shiftOf fo ws i) ws[i] ∧ shiftOf fo ws i + ws[i] ≤ n := by
  rw [fieldLayoutsOf_getElem?] at hf
  obtain ⟨w, hw, rfl⟩ := Option.map_eq_some_iff.mp hf
  obtain ⟨hi, rfl⟩ := List.getElem?_eq_some_iff.mp hw
  have h1 := h.width_le fo hi
  have h2 := h.width_pos hi
  have h3 := h.le
  refine ⟨hi, ⟨?_, rfl, by omega⟩, h1⟩
  rw [BitVec.toNat_ofNat, Nat.mod_eq_of_lt (by norm_num; omega)]

/-- Two fields that share a bit are one. -/
theorem fields_unique {ws : List Nat} (fo : FieldOrder) {i j k : Nat} (hi : i < ws.length) (hj : j < ws.length)
    (h1 : shiftOf fo ws i ≤ k ∧ k < shiftOf fo ws i + ws[i]) (h2 : shiftOf fo ws j ≤ k ∧ k < shiftOf fo ws j + ws[j]) : i = j := by
  rcases Nat.lt_trichotomy i j with h | h | h
  · have := shiftOf_disjoint fo ws hi hj h
    cases fo <;> simp only at this <;> omega
  · exact h
  · have := shiftOf_disjoint fo ws hj hi h
    cases fo <;> simp only at this <;> omega

/-! ### Packing and unpacking -/

/-- A bit of the packed word is a bit of one field's projection. -/
theorem getLsbD_packWord (fs : List FieldLayout) (b : List Word) (k : Nat) :
    (packWord fs b).getLsbD k = true ↔ ∃ (i : Nat) (f : FieldLayout) (v : Word), fs[i]? = some f ∧ b[i]? = some v ∧ (project f v).getLsbD k = true := by
  rw [packWord, getLsbD_orAll]
  constructor
  · rintro ⟨a, ha, hk⟩
    obtain ⟨i, hi⟩ := List.mem_iff_getElem?.mp ha
    rw [List.getElem?_zipWith] at hi
    cases hf : fs[i]? with
    | none => simp [hf] at hi
    | some f =>
      cases hv : b[i]? with
      | none => simp [hf, hv] at hi
      | some v =>
        simp only [hf, hv, Option.some.injEq] at hi
        exact ⟨i, f, v, hf, hv, hi ▸ hk⟩
  · rintro ⟨i, f, v, hf, hv, hk⟩
    exact ⟨project f v, List.mem_iff_getElem?.mpr ⟨i, by simp [List.getElem?_zipWith, hf, hv]⟩, hk⟩

/-- The packed word has no bit outside the word. -/
theorem packWord_width {ws : List Nat} {n : Nat} (h : Fills ws n) (fo : FieldOrder) (b : List Word) :
    trunc n (packWord (fieldLayoutsOf fo ws) b) = packWord (fieldLayoutsOf fo ws) b := by
  rw [trunc_eq_self h.le]
  intro k hk
  rw [Bool.eq_false_iff, Ne, getLsbD_packWord]
  rintro ⟨i, f, v, hf, -, hbit⟩
  obtain ⟨hi, his, hle⟩ := fieldLayoutsOf_is h fo hf
  rw [getLsbD_project his] at hbit
  simp only [Bool.and_eq_true, decide_eq_true_eq] at hbit
  omega

/-- A field of the packed word is the field's observed value. -/
theorem takeField_packWord {ws : List Nat} {n : Nat} (h : Fills ws n) (fo : FieldOrder) {b : List Word} {i : Nat}
    {f : FieldLayout} {v : Word} (hf : (fieldLayoutsOf fo ws)[i]? = some f) (hv : b[i]? = some v) :
    takeField (packWord (fieldLayoutsOf fo ws) b) f = observed f v := by
  obtain ⟨hi, his, hle⟩ := fieldLayoutsOf_is h fo hf
  have h64 := h.le
  apply BitVec.eq_of_getLsbD_eq
  intro k _
  rw [getLsbD_takeField his (by omega), getLsbD_observed his]
  by_cases hk : k < ws[i]
  · simp only [hk, decide_true, Bool.and_true]
    rw [Bool.eq_iff_iff, getLsbD_packWord]
    constructor
    · rintro ⟨j, g, u, hg, hu, hbit⟩
      obtain ⟨hj, hjs, hjle⟩ := fieldLayoutsOf_is h fo hg
      rw [getLsbD_project hjs] at hbit
      simp only [Bool.and_eq_true, decide_eq_true_eq] at hbit
      have hij : i = j := fields_unique fo hi hj (k := shiftOf fo ws i + k) (by omega) (by omega)
      subst hij
      have : u = v := by rw [hv] at hu; exact (Option.some.inj hu).symm
      subst this
      simpa using hbit.2
    · intro hbit
      refine ⟨i, f, v, hf, hv, ?_⟩
      rw [getLsbD_project his]
      simp only [Bool.and_eq_true, decide_eq_true_eq]
      exact ⟨⟨⟨by omega, by omega⟩, by omega⟩, by simpa using hbit⟩
  · simp [hk]

/-- Packing what a word unpacks into gives the word. -/
theorem packWord_unpackWord {ws : List Nat} {n : Nat} (h : Fills ws n) (fo : FieldOrder) {r : Word} (hr : trunc n r = r) :
    packWord (fieldLayoutsOf fo ws) (unpackWord (fieldLayoutsOf fo ws) r) = r := by
  have h64 := h.le
  apply BitVec.eq_of_getLsbD_eq
  intro k _
  rw [Bool.eq_iff_iff, getLsbD_packWord]
  constructor
  · rintro ⟨i, f, v, hf, hv, hbit⟩
    obtain ⟨hi, his, hle⟩ := fieldLayoutsOf_is h fo hf
    rw [unpackWord, List.getElem?_map, hf] at hv
    obtain rfl := Option.some.inj hv
    rw [getLsbD_project his, getLsbD_takeField his (by omega)] at hbit
    simp only [Bool.and_eq_true, decide_eq_true_eq] at hbit
    have : shiftOf fo ws i + (k - shiftOf fo ws i) = k := by omega
    rw [this] at hbit
    exact hbit.2.1
  · intro hbit
    have hk : k < ws.sum := by
      by_contra hk
      have := (trunc_eq_self h64).mp hr k (by have := h.sum; omega)
      simp [this] at hbit
    obtain ⟨i, hi, h1, h2⟩ := shiftOf_cover fo ws hk
    obtain ⟨f, hf⟩ : ∃ f, (fieldLayoutsOf fo ws)[i]? = some f := ⟨_, List.getElem?_eq_getElem (by simpa using hi)⟩
    obtain ⟨_, his, hle⟩ := fieldLayoutsOf_is h fo hf
    refine ⟨i, f, takeField r f, hf, by rw [unpackWord, List.getElem?_map, hf]; rfl, ?_⟩
    rw [getLsbD_project his, getLsbD_takeField his (by omega)]
    have : shiftOf fo ws i + (k - shiftOf fo ws i) = k := by omega
    rw [this]
    simp only [Bool.and_eq_true, decide_eq_true_eq]
    exact ⟨⟨⟨by omega, h1⟩, h2⟩, hbit, by omega⟩

/-! ### Validation -/

/-- Identifiers repeat exactly when the list has duplicates. -/
theorem hasDup_eq_true {ids : List Ident} : hasDup ids = true ↔ ¬ ids.Nodup := by
  induction ids with
  | nil => simp [hasDup]
  | cons id ids ih =>
    simp only [hasDup, Bool.or_eq_true, ih, List.nodup_cons, List.contains_iff_mem]
    tauto

theorem passes_eq_true {e : Bool} {ds : List Descriptor} {w : StorageWidth} :
    passes e (validate ds w) = true ↔
      e = false ∧ (∀ d ∈ ds, d.width ≠ 0) ∧ (ds.map (fun d => d.id)).Nodup ∧ (widths ds).sum = w.bits := by
  have hd : hasDup (ds.map fun d => d.id) = false ↔ (ds.map (fun d => d.id)).Nodup := by
    rw [Bool.eq_false_iff, Ne, hasDup_eq_true, not_not]
  simp only [passes, validate, Bool.and_eq_true, Bool.not_eq_true', List.any_eq_false, hd, bne_eq_false_iff_eq, beq_iff_eq]
  tauto

/-- The widths of a schema that passes fill the word. -/
theorem fills_of_passes {e : Bool} {ds : List Descriptor} {w : StorageWidth} (h : passes e (validate ds w) = true) :
    Fills (widths ds) w.bits := by
  obtain ⟨-, h0, -, hs⟩ := passes_eq_true.mp h
  refine ⟨?_, hs, bits_le w⟩
  intro x hx
  obtain ⟨d, hd, rfl⟩ := List.mem_map.mp hx
  have := h0 d hd
  rw [Ne, BitVec.toNat_eq] at this
  simpa [Nat.pos_iff_ne_zero] using this

@[simp] theorem widths_length (ds : List Descriptor) : (widths ds).length = ds.length := by simp [widths]

end Sys2Proof.Machine
end

