-- ==== Sys2Proof/Laws/Invariant.lean ====
section
/-! SUPPORT. What the invariant says of a block in VALID, in the terms the commands use. -/

namespace Sys2Proof.Machine

open Sys2Proof

/-- What a block in VALID holds: its schema, the layout derived from it, and every bank. -/
structure State.Holds (s : State) (ds : List Descriptor) : Prop where
  schema : s.schema? = some ds
  length : ds.length = s.fcount.toNat
  passes : passes s.eCount (validate ds s.wsel) = true
  layout : s.layout = some (layoutOf s.fo ds)
  fields : s.fieldLayouts? = some (fieldLayoutsOf s.fo (widths ds))
  fills : Fills (widths ds) s.wsel.bits
  banks : s.slot.length = s.cfg.nCont
  bank : ∀ b ∈ s.slot, b.length = s.fcount.toNat ∧ ∀ v ∈ b, trunc s.wsel.bits v = v

/-- In VALID the invariant gives all of it. -/
theorem holds_of_inv {s : State} (h : s.Inv) (hv : s.cstate = .valid) : ∃ ds, s.Holds ds := by
  obtain ⟨-, ⟨-, hsome⟩, hlayout, hslots, -⟩ := h
  obtain ⟨hpass, hlay⟩ := hlayout hv
  obtain ⟨hlen, hb⟩ := hslots hv
  obtain ⟨ds, hds⟩ := Option.isSome_iff_exists.mp hsome
  rw [hds] at hpass hlay
  simp only [Option.any_some, Option.map_some] at hpass hlay
  have hl := schema_length hds
  refine ⟨ds, hds, hl, hpass, hlay, ?_, fills_of_passes hpass, hlen, hb⟩
  rw [fieldLayouts_eq_some]
  refine ⟨_, hlay, by simp [layoutOf, hl], ?_⟩
  simp [layoutOf, List.take_of_length_le, hl]

namespace State.Holds

variable {s : State} {ds : List Descriptor}

theorem descriptor (h : s.Holds ds) {i : Nat} {d : Descriptor} (hd : s.FieldAt i d) : ds[i]? = some d := by
  simpa [State.FieldAt, h.schema] using hd

theorem descriptor_lt (h : s.Holds ds) {i : Nat} {d : Descriptor} (hd : s.FieldAt i d) : i < s.fcount.toNat := by
  rw [← h.length]
  exact (List.getElem?_eq_some_iff.mp (h.descriptor hd)).1

/-- The field an identifier names is the one the lookup finds: identifiers are distinct. -/
theorem fieldIndex (h : s.Holds ds) {i : Nat} {d : Descriptor} (hd : s.FieldAt i d) : fieldIndex ds d.id = some i := by
  obtain ⟨hi, rfl⟩ := List.getElem?_eq_some_iff.mp (h.descriptor hd)
  obtain ⟨-, -, hnodup, -⟩ := passes_eq_true.mp h.passes
  rw [fieldIndex_eq_some]
  refine ⟨hi, rfl, fun j hj heq => ?_⟩
  have hne := (List.nodup_iff_injective_get.mp hnodup)
  have := @hne ⟨j, by simp; omega⟩ ⟨i, by simpa using hi⟩ (by simpa using heq)
  simp only [Fin.mk.injEq] at this
  omega

theorem layoutEntry (h : s.Holds ds) {i : Nat} {f : FieldLayout} (hf : s.LayoutAt i f) :
    (fieldLayoutsOf s.fo (widths ds))[i]? = some f := by
  simpa [State.LayoutAt, h.layout, layoutOf] using hf

theorem layoutAt_iff (h : s.Holds ds) {i : Nat} {f : FieldLayout} :
    s.LayoutAt i f ↔ (fieldLayoutsOf s.fo (widths ds))[i]? = some f := by
  simp [State.LayoutAt, h.layout, layoutOf]

/-- A field's layout entry is of its width, at its shift, inside the word. -/
theorem is (h : s.Holds ds) {i : Nat} {f : FieldLayout} (hf : s.LayoutAt i f) :
    f.Is (shiftOf s.fo (widths ds) i) (widthAt ds i) ∧ shiftOf s.fo (widths ds) i + widthAt ds i ≤ s.wsel.bits := by
  obtain ⟨hi, his, hle⟩ := fieldLayoutsOf_is h.fills s.fo (h.layoutEntry hf)
  have : widthAt ds i = (widths ds)[i] := by
    rw [widths_length] at hi
    simp [widthAt, widths, List.getElem?_eq_getElem hi]
  rw [this]
  exact ⟨his, hle⟩

theorem widthAt_descriptor (h : s.Holds ds) {i : Nat} {d : Descriptor} (hd : s.FieldAt i d) : widthAt ds i = d.width.toNat := by
  simp [widthAt, h.descriptor hd]

/-- A field has a layout entry. -/
theorem exists_layout (h : s.Holds ds) {i : Nat} (hi : i < s.fcount.toNat) : ∃ f, s.LayoutAt i f := by
  simp only [h.layoutAt_iff]
  exact ⟨_, List.getElem?_eq_getElem (by simp [h.length, hi])⟩

/-- A bank that exists has its slots. -/
theorem exists_bank (h : s.Holds ds) {c : Nat} (hc : c < s.cfg.nCont) :
    ∃ b, s.slot[c]? = some b ∧ s.bank? c = some b ∧ b.length = s.fcount.toNat ∧ ∀ v ∈ b, trunc s.wsel.bits v = v := by
  have hc' : c < s.slot.length := by rw [h.banks]; exact hc
  obtain ⟨hl, hw⟩ := h.bank _ (List.getElem_mem hc')
  refine ⟨s.slot[c], List.getElem?_eq_getElem hc', ?_, hl, hw⟩
  rw [bank_eq_some]
  exact ⟨_, List.getElem?_eq_getElem hc', by omega, by rw [List.take_of_length_le (by omega)]⟩

end State.Holds

end Sys2Proof.Machine
end

