-- ==== Sys2Proof/Laws/Container.lean ====
section
/-! SUPPORT. What each container command does in a block whose invariant holds, said once: the next state it
answers when its checks pass, and what a write of a bank keeps. -/

namespace Sys2Proof.Machine

open Sys2Proof

variable {s : State} {c : BankSel} {ds : List Descriptor} {i : Nat} {d : Descriptor} {f : FieldLayout} {v : Word}
  {b : List Word}

theorem inStateToUse_of_valid (h : s.cstate = .valid) : inStateToUse s.cstate = true := by rw [h]; rfl

/-! ### The commands -/

theorem execReadField_eq (h : s.Holds ds) (hv : s.cstate = .valid) (hc : c.toNat < s.cfg.nCont) (hd : s.FieldAt i d)
    (hf : s.LayoutAt i f) (hr : s.rawSlot c.toNat i = some v) :
    exec (.readField c d.id) s = .next (s.answered .ok (observed f v)) := by
  obtain ⟨b, h1, h2, h3⟩ := h.exists_bank hc
  have hbv : b[i]? = some v := by simpa [State.rawSlot, h1] using hr
  simp [exec, execReadField, inStateToUse_of_valid hv, hc, h.schema, h.fieldIndex hd, h.fields, h2, hbv, h.layoutEntry hf]

theorem execExtract_eq (h : s.Holds ds) (hv : s.cstate = .valid) (hc : c.toNat < s.cfg.nCont) (hd : s.FieldAt i d)
    (hf : s.LayoutAt i f) (hr : s.rawSlot c.toNat i = some v) :
    exec (.extract c d.id) s = .next (s.answered .ok (transform s.bo s.wsel (project f v))) := by
  obtain ⟨b, h1, h2, h3⟩ := h.exists_bank hc
  have hbv : b[i]? = some v := by simpa [State.rawSlot, h1] using hr
  simp [exec, execExtract, inStateToUse_of_valid hv, hc, h.schema, h.fieldIndex hd, h.fields, h2, hbv, h.layoutEntry hf,
    State.transform]

theorem execSerialize_eq (h : s.Holds ds) (hv : s.cstate = .valid) (hc : c.toNat < s.cfg.nCont)
    (hb : s.slot[c.toNat]? = some b) :
    exec (.serialize c) s =
      .next (s.answered .ok (transform s.bo s.wsel (packWord (fieldLayoutsOf s.fo (widths ds)) b))) := by
  obtain ⟨b', h1, h2, h3⟩ := h.exists_bank hc
  rw [hb] at h1; cases h1
  simp [exec, execSerialize, inStateToUse_of_valid hv, hc, h.fields, h2, State.transform]

theorem execWriteField_eq (h : s.Holds ds) (hv : s.cstate = .valid) (hc : c.toNat < s.cfg.nCont) (hd : s.FieldAt i d)
    (hb : s.slot[c.toNat]? = some b) :
    exec (.writeField c d.id) s = .next ((setBank c (b.set i s.dataOperand) s).answered .ok 0) := by
  obtain ⟨b', h1, h2, h3⟩ := h.exists_bank hc
  rw [hb] at h1; cases h1
  simp [exec, execWriteField, inStateToUse_of_valid hv, hc, h.schema, h.fieldIndex hd, h2]

theorem execUnpack_eq (h : s.Holds ds) (hv : s.cstate = .valid) (hc : c.toNat < s.cfg.nCont) :
    exec (.unpack c) s = .next
      ((setBank c (unpackWord (fieldLayoutsOf s.fo (widths ds)) (transform s.bo s.wsel s.dataOperand)) s).answered .ok 0) := by
  obtain ⟨b', h1, h2, h3⟩ := h.exists_bank hc
  simp [exec, execUnpack, inStateToUse_of_valid hv, hc, h.fields, h2, State.transform]

theorem execClear_eq (h : s.Holds ds) (hv : s.cstate = .valid) (hc : c.toNat < s.cfg.nCont) :
    exec (.clear c) s = .next ((setBank c (List.replicate s.fcount.toNat 0) s).answered .ok 0) := by
  obtain ⟨b', h1, h2, h3, _⟩ := h.exists_bank hc
  simp [exec, execClear, inStateToUse_of_valid hv, hc, h2, ← h3]

/-! ### Reads and writes of a slot -/

theorem bank_lt (h : s.Holds ds) (hc : c.toNat < s.cfg.nCont) : c.toNat < s.slot.length := by rw [h.banks]; exact hc

/-- A field of a bank that exists has a slot. -/
theorem rawSlot_exists (h : s.Holds ds) (hc : c.toNat < s.cfg.nCont) (hi : i < s.fcount.toNat) :
    ∃ v, s.rawSlot c.toNat i = some v := by
  obtain ⟨b, h1, h2, h3, _⟩ := h.exists_bank hc
  exact ⟨b[i]'(by omega), by simp [State.rawSlot, h1]⟩

/-- The slots of the bank written are those written. -/
theorem rawSlot_setBank_self (h : s.Holds ds) (hc : c.toNat < s.cfg.nCont) : (setBank c b s).rawSlot c.toNat i = b[i]? := by
  simp [State.rawSlot, bank_lt h hc]

/-- The slots of every other bank stay. -/
theorem rawSlot_setBank_ne {k : Nat} (hk : k ≠ c.toNat) : (setBank c b s).rawSlot k i = s.rawSlot k i := by
  simp [State.rawSlot, List.getElem?_set_ne (Ne.symm hk)]

/-- A bank written with a slot a field, each of at most `W` bits, leaves the block as it should be. -/
theorem holds_setBank (h : s.Holds ds) (hl : b.length = s.fcount.toNat) (hw : ∀ v ∈ b, trunc s.wsel.bits v = v) :
    (setBank c b s).Holds ds := by
  refine ⟨h.schema, h.length, h.passes, h.layout, h.fields, h.fills, by simp [h.banks], ?_⟩
  intro b' hb'
  rcases List.mem_or_eq_of_mem_set hb' with hm | rfl
  · exact h.bank _ hm
  · exact ⟨hl, hw⟩

/-- A response changes nothing that the block holds. -/
theorem holds_answered (h : s.Holds ds) (code : RspCode) (data : Word) : (s.answered code data).Holds ds :=
  ⟨h.schema, h.length, h.passes, h.layout, h.fields, h.fills, h.banks, h.bank⟩

/-- Nor does another DATA_IN. -/
theorem holds_dataIn (h : s.Holds ds) (x : Word) : ({ s with dataIn := x } : State).Holds ds :=
  ⟨h.schema, h.length, h.passes, h.layout, h.fields, h.fills, h.banks, h.bank⟩

end Sys2Proof.Machine
end

