-- ==== Sys2Proof/Laws/Decode.lean ====
section
/-! SUPPORT. The opcode map, said once: every word fits at most one row, since a row fixes OP; a word that fits a
row decodes to it, and a word that fits none is refused. -/

namespace Sys2Proof

/-- Every row fixes OP: its mask covers OP's bits. -/
theorem rows_mask_op : ∀ r ∈ rows, opField r.mask = 0xF#4 := by decide

/-- A word that fits a row has the row's OP. -/
theorem opField_of_fits {r : Row} (hr : r ∈ rows) {w : CmdWord} (h : r.fits w = true) : opField w = opField r.pattern := by
  have hm := rows_mask_op r hr
  rw [Row.fits, beq_iff_eq] at h
  rw [← h]
  simp only [opField] at hm ⊢
  rw [BitVec.extractLsb'_and, hm, show (0xF#4 : BitVec 4) = BitVec.allOnes 4 from rfl, BitVec.and_allOnes]

/-- Row `k` has `OP = k`, so the OP tells the row. -/
theorem row_of_op {r r' : Row} (hr : r ∈ rows) (hr' : r' ∈ rows) (h : opField r.pattern = opField r'.pattern) : r = r' := by
  have hn : (rows.map fun r => opField r.pattern).Nodup := by decide
  exact List.inj_on_of_nodup_map hn hr hr' h

theorem rowOfWord_of_fits {r : Row} (hr : r ∈ rows) {w : CmdWord} (h : r.fits w = true) : rowOfWord w = some r := by
  cases hf : rowOfWord w with
  | none => exact absurd h (by simpa using (List.find?_eq_none.mp hf) r hr)
  | some r' =>
    have hm := List.mem_of_find?_eq_some hf
    have hw : r'.fits w = true := List.find?_some (p := fun r : Row => r.fits w) hf
    rw [row_of_op hm hr ((opField_of_fits hm hw).symm.trans (opField_of_fits hr h))]

/-- A word that fits a row decodes to that row's command. -/
theorem decode_of_fits {r : Row} (hr : r ∈ rows) {w : CmdWord} (h : r.fits w = true) : decode w = .ok (r.build w) := by
  rw [decode, rowOfWord_of_fits hr h]

/-- A word that fits no row is refused, by name. -/
theorem decode_of_no_fit {w : CmdWord} (h : ∀ r ∈ rows, r.fits w = false) : decode w = .error (.unusedBits (opField w)) := by
  have hn : rowOfWord w = none := List.find?_eq_none.mpr fun r hr => by simp [h r hr]
  rw [decode, hn]

theorem rowOf_mem (i : Instr) : rowOf i ∈ rows := by cases i <;> simp [rowOf, rows]

/-! ### A field of the word, cut by a mask -/

/-- A mask over a packed word cuts each field by itself. -/
theorem pack_and (op csel id width wsel bo fo) (m : CmdWord) :
    pack op csel id width wsel bo fo &&& m =
      (op.setWidth 32 &&& m) ||| ((csel.setWidth 32 <<< 4) &&& m) ||| ((id.setWidth 32 <<< 8) &&& m)
        ||| ((width.setWidth 32 <<< 16) &&& m) ||| ((wsel.setWidth 32 <<< 23) &&& m)
        ||| ((bo.setWidth 32 <<< 25) &&& m) ||| ((fo.setWidth 32 <<< 26) &&& m) := by
  simp only [pack, BitVec.and_or_distrib_right]

end Sys2Proof
end

