-- ==== Sys2Proof/Laws/Exec.lean ====
section
/-! SUPPORT. What a command can do, said once: it either has its own effect, or answers an error that the checks
raise, which changes nothing but the error record and the response. -/

namespace Sys2Proof.Machine

open Sys2Proof

/-- A command of bank `c` in VALID, past its checks. -/
structure UsesBank (s : State) (c : BankSel) : Prop where
  valid : s.cstate = .valid
  bank : c.toNat < s.cfg.nCont

/-- The identifier names field `i`. -/
def Names (s : State) (id : Ident) (i : Nat) : Prop := ∃ ds, s.schema? = some ds ∧ fieldIndex ds id = some i

/-- A command's own effect: the state it leaves when its checks pass. -/
def Effect (i : Instr) (s t : State) : Prop :=
  match i with
  | .nop => t = s.answered .ok 0
  | .cfgBegin w bo fo => s.cstate ≠ .valid ∧
      t = { clearSchemaFlags s with wsel := w, bo := bo, fo := fo, fcount := 0, cstate := .config }.answered .ok 0
  | .cfgField id width => s.cstate = .config ∧ t = (appendDescriptor { id := id, width := width } s).answered .ok 0
  | .cfgCommit => s.cstate = .config ∧ ∃ ds, s.schema? = some ds ∧
      ((passes s.eCount (validate ds s.wsel) = true ∧ t = (commitSchema ds s).answered .ok 0) ∨
        (passes s.eCount (validate ds s.wsel) = false ∧ t = (rejectSchema (validate ds s.wsel) s).erred .errSchema))
  | .clear c => UsesBank s c ∧ ∃ b, s.bank? c.toNat = some b ∧ t = (setBank c (b.map fun _ => 0) s).answered .ok 0
  | .unpack c => UsesBank s c ∧ ∃ b fs, s.bank? c.toNat = some b ∧ s.fieldLayouts? = some fs ∧
      t = (setBank c (unpackWord fs (s.transform s.dataOperand)) s).answered .ok 0
  | .writeField c id => UsesBank s c ∧ ∃ i b, Names s id i ∧ s.bank? c.toNat = some b ∧
      t = (setBank c (b.set i s.dataOperand) s).answered .ok 0
  | .readField c id => UsesBank s c ∧ ∃ i b v fs f, Names s id i ∧ s.bank? c.toNat = some b ∧ b[i]? = some v ∧
      s.fieldLayouts? = some fs ∧ fs[i]? = some f ∧ t = s.answered .ok (observed f v)
  | .extract c id => UsesBank s c ∧ ∃ i b v fs f, Names s id i ∧ s.bank? c.toNat = some b ∧ b[i]? = some v ∧
      s.fieldLayouts? = some fs ∧ fs[i]? = some f ∧ t = s.answered .ok (s.transform (project f v))
  | .serialize c => UsesBank s c ∧ ∃ b fs, s.bank? c.toNat = some b ∧ s.fieldLayouts? = some fs ∧
      t = s.answered .ok (s.transform (packWord fs b))
  | .queryShift id => s.cstate = .valid ∧ ∃ i fs f, Names s id i ∧ s.fieldLayouts? = some fs ∧ fs[i]? = some f ∧
      t = s.answered .ok (f.shift.setWidth 64)
  | .queryMask id => s.cstate = .valid ∧ ∃ i fs f, Names s id i ∧ s.fieldLayouts? = some fs ∧ fs[i]? = some f ∧
      t = s.answered .ok f.mask
  | .queryLayout => s.cstate = .valid ∧ ∃ l, s.layout = some l ∧ t = s.answered .ok (layoutWord l.occ s)
  | .readStatus => t = s.answered .ok (statusWord s)
  | .reservedOpE _ => False
  | .reservedOpF _ => False

/-- An error that a check raises: ERR_ILLEGAL, ERR_STATE, ERR_CSEL or ERR_NO_FIELD. -/
def CheckError (s t : State) : Prop := ∃ e : RspCode, e ≠ .ok ∧ e ≠ .errSchema ∧ t = s.erred e

@[simp] theorem inStateToUse_iff (c : CState) : inStateToUse c = true ↔ c = .valid := by cases c <;> decide

@[simp] theorem inStateToLoad_iff (c : CState) : inStateToLoad c = true ↔ c = .config := by cases c <;> decide

@[simp] theorem inStateToBegin_iff (c : CState) : inStateToBegin c = true ↔ c ≠ .valid := by cases c <;> decide

variable {s t : State}

theorem checkError_state (h : t = s.erred .errState) : CheckError s t := ⟨_, by decide, by decide, h⟩

theorem checkError_csel (h : t = s.erred .errCsel) : CheckError s t := ⟨_, by decide, by decide, h⟩

theorem checkError_noField (h : t = s.erred .errNoField) : CheckError s t := ⟨_, by decide, by decide, h⟩

theorem checkError_illegal (h : t = s.erred .errIllegal) : CheckError s t := ⟨_, by decide, by decide, h⟩

/-- A container command's checks of state and bank: its body, or a check's error. -/
theorem bankChecks_next {c : BankSel} {body : Result}
    (h : requireState inStateToUse s (requireBank c s body) = .next t) :
    (UsesBank s c ∧ body = .next t) ∨ CheckError s t := by
  rw [requireState_next, requireBank_next] at h
  rcases h with ⟨hv, ⟨hc, hb⟩ | ⟨-, ht⟩⟩ | ⟨-, ht⟩
  · exact .inl ⟨⟨(inStateToUse_iff _).mp hv, hc⟩, hb⟩
  · exact .inr (checkError_csel ht)
  · exact .inr (checkError_state ht)

/-- The lookup's check: the body at the field's index, or a check's error. -/
theorem fieldCheck_next {id : Ident} {body : Nat → Result} (h : requireField id s body = .next t) :
    (∃ i, Names s id i ∧ body i = .next t) ∨ CheckError s t := by
  rw [requireField_next] at h
  obtain ⟨ds, hds, ⟨i, hi, hb⟩ | ⟨-, ht⟩⟩ := h
  · exact .inl ⟨i, ⟨ds, hds, hi⟩, hb⟩
  · exact .inr (checkError_noField ht)

theorem execCfgBegin_cases {w bo fo} (h : execCfgBegin w bo fo s = .next t) : Effect (.cfgBegin w bo fo) s t ∨ CheckError s t := by
  rw [execCfgBegin, requireState_next, respond_next] at h
  rcases h with ⟨hs, ht⟩ | ⟨-, ht⟩
  · exact .inl ⟨(inStateToBegin_iff _).mp hs, ht⟩
  · exact .inr (checkError_state ht)

theorem execCfgField_cases {id width} (h : execCfgField id width s = .next t) : Effect (.cfgField id width) s t ∨ CheckError s t := by
  rw [execCfgField, requireState_next, respond_next] at h
  rcases h with ⟨hs, ht⟩ | ⟨-, ht⟩
  · exact .inl ⟨(inStateToLoad_iff _).mp hs, ht⟩
  · exact .inr (checkError_state ht)

theorem execCfgCommit_cases (h : execCfgCommit s = .next t) : Effect .cfgCommit s t ∨ CheckError s t := by
  rw [execCfgCommit, requireState_next] at h
  rcases h with ⟨hs, h⟩ | ⟨-, ht⟩
  · refine .inl ⟨(inStateToLoad_iff _).mp hs, ?_⟩
    cases hd : s.schema? with
    | none => simp [hd] at h
    | some ds =>
      refine ⟨ds, rfl, ?_⟩
      simp only [hd] at h
      by_cases hp : passes s.eCount (validate ds s.wsel) = true
      · exact .inl ⟨hp, by simpa [hp] using h⟩
      · exact .inr ⟨by simpa using hp, by simpa [hp] using h⟩
  · exact .inr (checkError_state ht)

theorem execClear_cases {c} (h : execClear c s = .next t) : Effect (.clear c) s t ∨ CheckError s t := by
  rcases bankChecks_next h with ⟨hu, h⟩ | h
  · obtain ⟨b, hb, ht⟩ := (withBank_next _ _).mp h
    exact .inl ⟨hu, b, hb, (respond_next _ _).mp ht⟩
  · exact .inr h

theorem execUnpack_cases {c} (h : execUnpack c s = .next t) : Effect (.unpack c) s t ∨ CheckError s t := by
  rcases bankChecks_next h with ⟨hu, h⟩ | h
  · obtain ⟨b, hb, h⟩ := (withBank_next _ _).mp h
    obtain ⟨fs, hf, ht⟩ := (withLayout_next _).mp h
    exact .inl ⟨hu, b, fs, hb, hf, (respond_next _ _).mp ht⟩
  · exact .inr h

theorem execWriteField_cases {c id} (h : execWriteField c id s = .next t) : Effect (.writeField c id) s t ∨ CheckError s t := by
  rcases bankChecks_next h with ⟨hu, h⟩ | h
  · rcases fieldCheck_next h with ⟨i, hi, h⟩ | h
    · obtain ⟨b, hb, ht⟩ := (withBank_next _ _).mp h
      exact .inl ⟨hu, i, b, hi, hb, (respond_next _ _).mp ht⟩
    · exact .inr h
  · exact .inr h

theorem execReadField_cases {c id} (h : execReadField c id s = .next t) : Effect (.readField c id) s t ∨ CheckError s t := by
  rcases bankChecks_next h with ⟨hu, h⟩ | h
  · rcases fieldCheck_next h with ⟨i, hi, h⟩ | h
    · obtain ⟨b, v, hb, hv, h⟩ := (withSlot_next _ _ _).mp h
      obtain ⟨fs, f, hfs, hf, ht⟩ := (withFieldLayout_next _ _).mp h
      exact .inl ⟨hu, i, b, v, fs, f, hi, hb, hv, hfs, hf, (respond_next _ _).mp ht⟩
    · exact .inr h
  · exact .inr h

theorem execExtract_cases {c id} (h : execExtract c id s = .next t) : Effect (.extract c id) s t ∨ CheckError s t := by
  rcases bankChecks_next h with ⟨hu, h⟩ | h
  · rcases fieldCheck_next h with ⟨i, hi, h⟩ | h
    · obtain ⟨b, v, hb, hv, h⟩ := (withSlot_next _ _ _).mp h
      obtain ⟨fs, f, hfs, hf, ht⟩ := (withFieldLayout_next _ _).mp h
      exact .inl ⟨hu, i, b, v, fs, f, hi, hb, hv, hfs, hf, (respond_next _ _).mp ht⟩
    · exact .inr h
  · exact .inr h

theorem execSerialize_cases {c} (h : execSerialize c s = .next t) : Effect (.serialize c) s t ∨ CheckError s t := by
  rcases bankChecks_next h with ⟨hu, h⟩ | h
  · obtain ⟨b, hb, h⟩ := (withBank_next _ _).mp h
    obtain ⟨fs, hf, ht⟩ := (withLayout_next _).mp h
    exact .inl ⟨hu, b, fs, hb, hf, (respond_next _ _).mp ht⟩
  · exact .inr h

theorem execQueryShift_cases {id} (h : execQueryShift id s = .next t) : Effect (.queryShift id) s t ∨ CheckError s t := by
  rw [execQueryShift, requireState_next] at h
  rcases h with ⟨hv, h⟩ | ⟨-, ht⟩
  · rcases fieldCheck_next h with ⟨i, hi, h⟩ | h
    · obtain ⟨fs, f, hfs, hf, ht⟩ := (withFieldLayout_next _ _).mp h
      exact .inl ⟨(inStateToUse_iff _).mp hv, i, fs, f, hi, hfs, hf, (respond_next _ _).mp ht⟩
    · exact .inr h
  · exact .inr (checkError_state ht)

theorem execQueryMask_cases {id} (h : execQueryMask id s = .next t) : Effect (.queryMask id) s t ∨ CheckError s t := by
  rw [execQueryMask, requireState_next] at h
  rcases h with ⟨hv, h⟩ | ⟨-, ht⟩
  · rcases fieldCheck_next h with ⟨i, hi, h⟩ | h
    · obtain ⟨fs, f, hfs, hf, ht⟩ := (withFieldLayout_next _ _).mp h
      exact .inl ⟨(inStateToUse_iff _).mp hv, i, fs, f, hi, hfs, hf, (respond_next _ _).mp ht⟩
    · exact .inr h
  · exact .inr (checkError_state ht)

theorem execQueryLayout_cases (h : execQueryLayout s = .next t) : Effect .queryLayout s t ∨ CheckError s t := by
  rw [execQueryLayout, requireState_next] at h
  rcases h with ⟨hv, h⟩ | ⟨-, ht⟩
  · cases hl : s.layout with
    | none => simp [hl] at h
    | some l => exact .inl ⟨(inStateToUse_iff _).mp hv, l, hl, by simpa [hl] using h⟩
  · exact .inr (checkError_state ht)

/-- A command that answers a next state has had its own effect, or answers a check's error. -/
theorem exec_cases {i : Instr} (h : exec i s = .next t) : Effect i s t ∨ CheckError s t := by
  cases i with
  | nop => exact .inl ((respond_next .ok 0).mp h)
  | cfgBegin w bo fo => exact execCfgBegin_cases h
  | cfgField id width => exact execCfgField_cases h
  | cfgCommit => exact execCfgCommit_cases h
  | clear c => exact execClear_cases h
  | unpack c => exact execUnpack_cases h
  | writeField c id => exact execWriteField_cases h
  | readField c id => exact execReadField_cases h
  | extract c id => exact execExtract_cases h
  | serialize c => exact execSerialize_cases h
  | queryShift id => exact execQueryShift_cases h
  | queryMask id => exact execQueryMask_cases h
  | queryLayout => exact execQueryLayout_cases h
  | readStatus => exact .inl ((respond_next .ok _).mp h)
  | reservedOpE cmd => exact .inr (checkError_illegal ((raise_next _).mp h))
  | reservedOpF cmd => exact .inr (checkError_illegal ((raise_next _).mp h))

end Sys2Proof.Machine
end

