-- ==== Sys2Proof/Laws/PerInstr.lean ====
section
/-! SUPPORT. Family `Encoded`: the word of a well-formed command fits the row of the opcode map it belongs to, so
that decoding it finds the row (spec/30_encoding.md R57, R60). -/

namespace Sys2Proof.Laws.Encoded

open Sys2Proof

/-- The command's word fits its row. -/
def Statement (i : Instr) : Prop := i.wellFormed = true → (rowOf i).fits (encode i) = true

/-! Whatever a field holds, a mask that leaves the field to the row cuts it away. -/

theorem csel_cut : ∀ c : BankSel, (c.setWidth 32 <<< 4) &&& 0xFFFFFF0F#32 = 0#32 := by decide

theorem csel_cut_named : ∀ c : BankSel, (c.setWidth 32 <<< 4) &&& 0xFFFF000F#32 = 0#32 := by decide

theorem id_cut_named : ∀ id : Ident, (id.setWidth 32 <<< 8) &&& 0xFFFF000F#32 = 0#32 := by decide

theorem id_cut : ∀ id : Ident, (id.setWidth 32 <<< 8) &&& 0xFFFF00FF#32 = 0#32 := by decide

theorem id_cut_field : ∀ id : Ident, (id.setWidth 32 <<< 8) &&& 0xFF8000FF#32 = 0#32 := by decide

theorem width_cut : ∀ n : BitVec 7, (n.setWidth 32 <<< 16) &&& 0xFF8000FF#32 = 0#32 := by decide

/-- The pattern a reserved operation's row looks for. -/
theorem reserved_cut (cmd : CmdWord) : cmd &&& 0x0000000F#32 = (cmd.extractLsb' 0 4).setWidth 32 := by
  apply BitVec.eq_of_getLsbD_eq
  intro k hk
  have hm : (0x0000000F#32 : CmdWord).getLsbD k = decide (k < 4) := by interval_cases k <;> decide
  rw [BitVec.getLsbD_and, hm, BitVec.getLsbD_setWidth, BitVec.getLsbD_extractLsb']
  by_cases h : k < 4 <;> simp [h, hk]

theorem nop : Statement .nop := fun _ => by decide

theorem cfgBegin (w : StorageWidth) (bo : ByteOrder) (fo : FieldOrder) : Statement (.cfgBegin w bo fo) := fun _ => by
  cases w <;> cases bo <;> cases fo <;> decide

theorem cfgField (id : Ident) (width : BitVec 7) : Statement (.cfgField id width) := fun _ => by
  simp only [rowOf, rowCfgField, Row.fits, encode, pack_and, id_cut_field, width_cut]
  decide

theorem cfgCommit : Statement .cfgCommit := fun _ => by decide

theorem clear (csel : BankSel) : Statement (.clear csel) := fun _ => by
  simp only [rowOf, rowClear, Row.fits, encode, pack_and, csel_cut]
  decide

theorem unpack (csel : BankSel) : Statement (.unpack csel) := fun _ => by
  simp only [rowOf, rowUnpack, Row.fits, encode, pack_and, csel_cut]
  decide

theorem writeField (csel : BankSel) (id : Ident) : Statement (.writeField csel id) := fun _ => by
  simp only [rowOf, rowWriteField, Row.fits, encode, pack_and, csel_cut_named, id_cut_named]
  decide

theorem readField (csel : BankSel) (id : Ident) : Statement (.readField csel id) := fun _ => by
  simp only [rowOf, rowReadField, Row.fits, encode, pack_and, csel_cut_named, id_cut_named]
  decide

theorem extract (csel : BankSel) (id : Ident) : Statement (.extract csel id) := fun _ => by
  simp only [rowOf, rowExtract, Row.fits, encode, pack_and, csel_cut_named, id_cut_named]
  decide

theorem serialize (csel : BankSel) : Statement (.serialize csel) := fun _ => by
  simp only [rowOf, rowSerialize, Row.fits, encode, pack_and, csel_cut]
  decide

theorem queryShift (id : Ident) : Statement (.queryShift id) := fun _ => by
  simp only [rowOf, rowQueryShift, Row.fits, encode, pack_and, id_cut]
  decide

theorem queryMask (id : Ident) : Statement (.queryMask id) := fun _ => by
  simp only [rowOf, rowQueryMask, Row.fits, encode, pack_and, id_cut]
  decide

theorem queryLayout : Statement .queryLayout := fun _ => by decide

theorem readStatus : Statement .readStatus := fun _ => by decide

theorem reservedOpE (cmd : CmdWord) : Statement (.reservedOpE cmd) := fun h => by
  simp only [Instr.wellFormed, beq_iff_eq] at h
  simp only [rowOf, rowReservedE, Row.fits, encode, reserved_cut, h]
  decide

theorem reservedOpF (cmd : CmdWord) : Statement (.reservedOpF cmd) := fun h => by
  simp only [Instr.wellFormed, beq_iff_eq] at h
  simp only [rowOf, rowReservedF, Row.fits, encode, reserved_cut, h]
  decide

end Sys2Proof.Laws.Encoded
end

