-- ==== Sys2Proof/Laws/Run.lean ====
section
/-! SUPPORT. A step and a run, said once: what each cycle of the port does, and how runs compose. -/

namespace Sys2Proof.Machine

open Sys2Proof

variable {s : State} {h : HostCycle} {rest : List HostCycle} {r : Response}

/-! ### The cycles of the port, for any meaning of the instructions -/

theorem portStep_idle (ex : Instr → State → Result) (hh : s.host = []) : portStep ex s = .next s := by
  simp only [portStep, hh]

theorem portStep_rst (ex : Instr → State → Result) (hh : s.host = h :: rest) (hr : h.rst = true) :
    portStep ex s = .next (.resetFor s.cfg rest) := by
  simp only [portStep, hh, portCycle, hr, if_true, resetBlock]

theorem portStep_take (ex : Instr → State → Result) (hh : s.host = h :: rest) (hr : h.rst = false) (hs : s.rsp = some r)
    (ht : h.rspReady = true) : portStep ex s = .next (takeResponse r { s with host := rest }) := by
  simp [portStep, hh, portCycle, hr, hs, ht]

theorem portStep_wait (ex : Instr → State → Result) (hh : s.host = h :: rest) (hr : h.rst = false) (hs : s.rsp = some r)
    (ht : h.rspReady = false) : portStep ex s = .next { s with host := rest } := by
  simp [portStep, hh, portCycle, hr, hs, ht]

theorem portStep_accept (ex : Instr → State → Result) (hh : s.host = h :: rest) (hr : h.rst = false) (hs : s.rsp = none)
    (hc : h.cmdValid = true) :
    portStep ex s = acceptCommand ex { cmd := h.cmd, dataIn := h.dataIn } { s with host := rest } := by
  simp [portStep, hh, portCycle, hr, hs, hc]

theorem portStep_nothing (ex : Instr → State → Result) (hh : s.host = h :: rest) (hr : h.rst = false) (hs : s.rsp = none)
    (hc : h.cmdValid = false) : portStep ex s = .next { s with host := rest } := by
  simp [portStep, hh, portCycle, hr, hs, hc]

/-- An accepted command is executed, or its word is of no row and it gets ERR_ILLEGAL. -/
theorem acceptCommand_next {ex : Instr → State → Result} {k : Command} {s t : State} :
    acceptCommand ex k s = .next t ↔
      (∃ i, decode k.cmd = .ok i ∧ ex i { s with dataIn := k.dataIn } = .next t) ∨
        ((∃ e, decode k.cmd = .error e) ∧ t = ({ s with dataIn := k.dataIn } : State).erred .errIllegal) := by
  unfold acceptCommand
  cases decode k.cmd <;> simp

/-! ### Runs, for any machine -/

theorem run_succ (M : Host.Core) (n : Nat) {s u : M.State} (h : M.step s = .next u) : M.run (n + 1) s = M.run n u := by
  simp [Host.Core.run, h]

/-- A run goes on from where its first part ends. -/
theorem run_add (M : Host.Core) (m n : Nat) {s u : M.State} (h : M.run m s = .next u) : M.run (m + n) s = M.run n u := by
  induction m generalizing s with
  | zero => simp only [Host.Core.run, Host.Outcome.next.injEq] at h; rw [h, Nat.zero_add]
  | succ m ih =>
    rw [Nat.add_right_comm]
    simp only [Host.Core.run] at h ⊢
    cases hs : M.step s with
    | next v => rw [hs] at h; exact ih h
    | fault r => simp [hs] at h
    | refused r => simp [hs] at h

end Sys2Proof.Machine
end

