-- ==== Sys2Proof/Laws/Simulation.lean ====
section
/-! SUPPORT. Two commands side by side, said once for each shared operation: where the one answers a next state, so
does the other, and the two states are related by `R`. It is how a command in two states that differ in DATA_IN, in
the byte order or in the slots is compared, and this block with the one that masks on write (R84). -/

namespace Sys2Proof.Machine

open Sys2Proof

/-- Where `x` answers a next state, `y` answers one related to it. -/
def Sim (R : State → State → Prop) (x y : Result) : Prop := ∀ t, x = .next t → ∃ t', y = .next t' ∧ R t t'

namespace Sim

variable {R : State → State → Prop} {s s' : State} {x y : Result}

theorem fault {e : Fault} : Sim R (.fault e) y := by intro t h; cases h

theorem respond {k k' : RspCode} {d d' : Word} (h : R (s.answered k d) (s'.answered k' d')) :
    Sim R (Machine.respond k d s) (Machine.respond k' d' s') := by
  intro t ht
  rw [respond_next] at ht
  exact ⟨_, rfl, ht ▸ h⟩

theorem raise {e : RspCode} (h : R (s.erred e) (s'.erred e)) : Sim R (Machine.raise e s) (Machine.raise e s') := by
  intro t ht
  rw [raise_next] at ht
  exact ⟨_, rfl, ht ▸ h⟩

theorem requireState {allowed : CState → Bool} (hc : s'.cstate = s.cstate) (he : ∀ e, R (s.erred e) (s'.erred e))
    (hb : allowed s.cstate = true → Sim R x y) : Sim R (Machine.requireState allowed s x) (Machine.requireState allowed s' y) := by
  unfold Machine.requireState
  rw [hc]
  split
  · exact hb ‹_›
  · exact .raise (he _)

theorem requireBank {c : BankSel} (hc : s'.cfg = s.cfg) (he : ∀ e, R (s.erred e) (s'.erred e))
    (hb : c.toNat < s.cfg.nCont → Sim R x y) : Sim R (Machine.requireBank c s x) (Machine.requireBank c s' y) := by
  unfold Machine.requireBank
  rw [hc]
  split
  · exact hb ‹_›
  · exact .raise (he _)

theorem requireField {id : Ident} {p q : Nat → Result} (hc : s'.schema? = s.schema?) (he : ∀ e, R (s.erred e) (s'.erred e))
    (hb : ∀ i, Names s id i → Sim R (p i) (q i)) : Sim R (Machine.requireField id s p) (Machine.requireField id s' q) := by
  unfold Machine.requireField
  rw [hc]
  split
  · exact .fault
  · next ds hds =>
    split
    · exact .raise (he _)
    · next i hi => exact hb i ⟨ds, hds, hi⟩

theorem withBank {c : BankSel} {p q : List Word → Result}
    (h : ∀ b, s.bank? c.toNat = some b → ∃ b', s'.bank? c.toNat = some b' ∧ Sim R (p b) (q b')) :
    Sim R (Machine.withBank c s p) (Machine.withBank c s' q) := by
  unfold Machine.withBank
  split
  · exact .fault
  · next b hb => obtain ⟨b', h1, h2⟩ := h b hb; rw [h1]; exact h2

theorem withSlot {c : BankSel} {i : Nat} {p q : Word → Result}
    (h : ∀ b, s.bank? c.toNat = some b → ∃ b', s'.bank? c.toNat = some b' ∧
      ∀ v, b[i]? = some v → ∃ v', b'[i]? = some v' ∧ Sim R (p v) (q v')) :
    Sim R (Machine.withSlot c i s p) (Machine.withSlot c i s' q) := by
  unfold Machine.withSlot
  refine .withBank fun b hb => ?_
  obtain ⟨b', h1, h2⟩ := h b hb
  refine ⟨b', h1, ?_⟩
  split
  · exact .fault
  · next v hv => obtain ⟨v', h3, h4⟩ := h2 v hv; rw [h3]; exact h4

theorem withLayout {p q : List FieldLayout → Result} (h : s'.fieldLayouts? = s.fieldLayouts?)
    (hb : ∀ fs, s.fieldLayouts? = some fs → Sim R (p fs) (q fs)) : Sim R (Machine.withLayout s p) (Machine.withLayout s' q) := by
  unfold Machine.withLayout
  rw [h]
  split
  · exact .fault
  · exact hb _ ‹_›

theorem withFieldLayout {i : Nat} {p q : FieldLayout → Result} (h : s'.fieldLayouts? = s.fieldLayouts?)
    (hb : ∀ fs f, s.fieldLayouts? = some fs → fs[i]? = some f → Sim R (p f) (q f)) :
    Sim R (Machine.withFieldLayout i s p) (Machine.withFieldLayout i s' q) := by
  unfold Machine.withFieldLayout
  refine .withLayout h fun fs hfs => ?_
  split
  · exact .fault
  · exact hb _ _ hfs ‹_›

end Sim

end Sys2Proof.Machine
end

