-- ==== Sys2Proof/Tests/Slice0.lean ====
section
/-! SUPPORT. The model's own tests: small ones, each of one command on a small state, with the results that
spec/95_test_vectors.md states (the vector's name stands in the comment), and for every obligation with hypotheses a
witness that meets them together. -/

namespace Sys2Proof.Tests

open Sys2Proof Sys2Proof.Machine

/-! ### Small states -/

/-- A block whose schema is `ds` and whose banks hold `slot`, in VALID. -/
def inUse (w : StorageWidth) (bo : ByteOrder) (fo : FieldOrder) (ds : List Descriptor) (slot : List (List Word)) : State :=
  { State.reset with
    cfg := { nCont := slot.length }, cstate := .valid, wsel := w, bo := bo, fo := fo, fcount := BitVec.ofNat 7 ds.length
    desc := Vector.ofFn fun j => ds[j.val]?, layout := some (layoutOf fo ds), slot := slot }

/-- A block in which `ds` has been loaded and not committed. -/
def loading (w : StorageWidth) (ds : List Descriptor) : State :=
  { State.reset with
    cstate := .config, wsel := w, fcount := BitVec.ofNat 7 ds.length, desc := Vector.ofFn fun j => ds[j.val]? }

/-- The fields of S1. -/
def fieldsS1 : List Descriptor := [⟨1, 3⟩, ⟨2, 2⟩, ⟨3, 3⟩]

/-- S1 after V-S1's three writes. -/
def stateS1 : State := inUse .w8 .big .msbFirst fieldsS1 [[0b101, 0b11, 0b010]]

/-- The fields of the 16-bit little lsb schema of V-C10. -/
def fieldsC10 : List Descriptor := [⟨1, 5⟩, ⟨2, 6⟩, ⟨3, 5⟩]

/-- V-C10 after its three writes, with a second bank whose slots hold bits above their fields. -/
def stateC10 : State := inUse .w16 .little .lsbFirst fieldsC10 [[0x1F, 0x2A, 0x41], [0xFFFF, 0x0040, 0x8000]]

/-- V-C9's schema: one field as wide as the word. -/
def stateC9 : State := inUse .w64 .little .msbFirst [⟨7, 64⟩] [[0x0102030405060708], [0xFFFFFFFFFFFFFFFF]]

/-- A store with all 64 entries in use, in CONFIG (V-L13). -/
def stateFull : State := loading .w64 ((List.range 64).map fun k => ⟨BitVec.ofNat 8 k, 1⟩)

/-- The response of a command. -/
def answer (r : Result) : Option Response :=
  match r with
  | .next t => t.rsp
  | .fault _ => none
  | .refused _ => none

/-- Whether a command's next state satisfies a test. -/
def after (r : Result) (p : State → Bool) : Bool :=
  match r with
  | .next t => p t
  | .fault _ => false
  | .refused _ => false

/-! ### WellFormed: an ill-formed term for each check, refused -/

theorem test_illFormed_reservedOpE : (Instr.reservedOpE 0x0000000F).wellFormed = false := by decide
theorem test_illFormed_reservedOpF : (Instr.reservedOpF 0xFFFFFFFE).wellFormed = false := by decide
theorem test_wellFormed_reservedOpE : (Instr.reservedOpE 0xFFFFFFFE).wellFormed = true := by decide
theorem test_illFormed_config_none : Config.wellFormed { nCont := 0 } = false := by decide
theorem test_illFormed_config_many : Config.wellFormed { nCont := 17 } = false := by decide
theorem test_wellFormed_config_edges : Config.wellFormed { nCont := 1 } = true ∧ Config.wellFormed { nCont := 16 } = true := by decide
theorem test_illFormed_line_width : (AsmLine.cfgBegin 24 .big .msbFirst).wellFormed = false := by decide
theorem test_illFormed_line_bank : (AsmLine.clear 16).wellFormed = false := by decide
theorem test_illFormed_line_id : (AsmLine.rd 0 256).wellFormed = false := by decide
theorem test_illFormed_line_fieldWidth : (AsmLine.cfgField 1 128).wellFormed = false := by decide
theorem test_illFormed_line_data : (AsmLine.unpack 0 (2 ^ 64)).wellFormed = false := by decide
theorem test_illFormed_line_word : (AsmLine.word (2 ^ 32) 0).wellFormed = false := by decide

/-! ### Decoding: words written out bit by bit from spec/30_encoding.md R50, FO BO WSEL WIDTH ID CSEL OP -/

theorem test_decode_nop : decode 0b00000_0_0_00_0000000_00000000_0000_0000 = .ok .nop := by decide
theorem test_decode_cfgBegin : decode 0b00000_1_0_10_0000000_00000000_0000_0001 = .ok (.cfgBegin .w32 .big .lsbFirst) := by decide
theorem test_decode_cfgBegin_little : decode 0b00000_0_1_11_0000000_00000000_0000_0001 = .ok (.cfgBegin .w64 .little .msbFirst) := by decide
theorem test_decode_cfgField : decode 0b00000_0_0_00_1000000_00000111_0000_0010 = .ok (.cfgField 7 64) := by decide
theorem test_decode_cfgCommit : decode 0b00000_0_0_00_0000000_00000000_0000_0011 = .ok .cfgCommit := by decide
theorem test_decode_clear : decode 0b00000_0_0_00_0000000_00000000_1010_0100 = .ok (.clear 10) := by decide
theorem test_decode_unpack : decode 0b00000_0_0_00_0000000_00000000_0001_0101 = .ok (.unpack 1) := by decide
theorem test_decode_writeField : decode 0b00000_0_0_00_0000000_00000001_0000_0110 = .ok (.writeField 0 1) := by decide
theorem test_decode_readField : decode 0b00000_0_0_00_0000000_00001001_1111_0111 = .ok (.readField 15 9) := by decide
theorem test_decode_extract : decode 0b00000_0_0_00_0000000_00000010_0000_1000 = .ok (.extract 0 2) := by decide
theorem test_decode_serialize : decode 0b00000_0_0_00_0000000_00000000_0001_1001 = .ok (.serialize 1) := by decide
theorem test_decode_queryShift : decode 0b00000_0_0_00_0000000_00111111_0000_1010 = .ok (.queryShift 63) := by decide
theorem test_decode_queryMask : decode 0b00000_0_0_00_0000000_00000111_0000_1011 = .ok (.queryMask 7) := by decide
theorem test_decode_queryLayout : decode 0b00000_0_0_00_0000000_00000000_0000_1100 = .ok .queryLayout := by decide
theorem test_decode_readStatus : decode 0b00000_0_0_00_0000000_00000000_0000_1101 = .ok .readStatus := by decide
theorem test_decode_reservedOpE : decode 0b10000_0_0_00_0000000_00000000_0000_1110 = .ok (.reservedOpE 0x8000000E) := by decide
theorem test_decode_reservedOpF : decode 0b00001_0_0_00_0000000_00000000_0000_1111 = .ok (.reservedOpF 0x0800000F) := by decide

/-- R60's example: NOP with CSEL = 1 is illegal. -/
theorem test_decode_unusedBits : decode 0x00000010 = .error (.unusedBits 0) := by decide

/-- A bit of `CMD[31:27]` is illegal in every row (R60). -/
theorem test_decode_highBits : decode 0x08000001 = .error (.unusedBits 1) := by decide

/-- CFG_FIELD has no CSEL and no WSEL (R57, R60). -/
theorem test_decode_cfgField_wsel : decode 0x00830102 = .error (.unusedBits 2) := by decide

theorem test_decodeTableWord : decodeTableWord 32 0x00030102 = some (.cfgField 1 3) ∧ decodeTableWord 32 0x10 = none := by decide

/-! ### The assembly language (R63): lines of spec/95_test_vectors.md -/

theorem test_assemble_begin : assembleText "cfg.begin w16, little, lsb".toList = some { cmd := 0x06800001, dataIn := 0 } := by decide
theorem test_assemble_wr : assembleText "wr c0, id=1, 0b101 ; a comment".toList = some { cmd := 0x00000106, dataIn := 5 } := by decide
theorem test_assemble_unpack : assembleText "unpack c1, 0x0807060504030201".toList = some { cmd := 0x15, dataIn := 0x0807060504030201 } := by decide
/-- Log entry 12: a `_` is no digit, and a numeral of the value spells a width. -/
theorem test_assemble_numerals : assembleText "unpack c0, 0xFF_FF".toList = none ∧
    assembleText "cfg.begin w0x10, little, lsb".toList = some { cmd := 0x06800001, dataIn := 0 } := by decide
theorem test_assemble_missing : assembleText "wr c0, id=1".toList = none := by decide
theorem test_assemble_range : assembleText "cfg.field id=256, width=3".toList = none := by decide
theorem test_assemble_word : assembleText ".word 0x00000010, 0".toList = some { cmd := 0x10, dataIn := 0 } := by decide
theorem test_assemble_program : (assembleProgram ["nop".toList, "; nothing".toList, "rd.status".toList]).map List.length = some 2 := by decide

/-! ### Commands -/

theorem test_nop : answer (exec .nop State.reset) = some ⟨.ok, 0⟩ := by decide                                   -- V-Q6

/-- R65's example: from reset, CFG_BEGIN, then STATUS is 1. -/
theorem test_cfgBegin : after (exec (.cfgBegin .w8 .big .msbFirst) State.reset) (fun t => statusWord t == 0x1) = true := by decide

/-- A committed layout is never replaced (R65). -/
theorem test_cfgBegin_valid : answer (exec (.cfgBegin .w8 .big .msbFirst) stateS1) = some ⟨.errState, 0⟩ := by decide

/-- R66's example. -/
theorem test_cfgField : after (exec (.cfgField 1 3) (loading .w8 [])) (fun t => t.schema? == some [⟨1, 3⟩] && t.fcount == 1) = true := by decide

/-- V-L13: the 65th descriptor answers OK and is counted out. -/
theorem test_cfgField_full : after (exec (.cfgField 64 1) stateFull) (fun t => t.fcount == 64 && t.eCount && t.rsp == some ⟨.ok, 0⟩) = true := by decide

/-- R67's example: SHIFT = 5, 3, 0 and MASK = 7, 3, 7. -/
theorem test_cfgCommit : after (exec .cfgCommit (loading .w8 fieldsS1)) (fun t =>
    t.layout == some ⟨[⟨5, 7⟩, ⟨3, 3⟩, ⟨0, 7⟩], 8⟩ && t.slot == [[0, 0, 0]]) = true := by decide

/-- V-L9: the sum 136 is 8 modulo 128 and fails. -/
theorem test_cfgCommit_sum : after (exec .cfgCommit (loading .w8 [⟨1, 127⟩, ⟨2, 9⟩])) (fun t => statusWord t == 0x1510083) = true := by decide

theorem test_clear : after (exec (.clear 0) stateS1) (fun t => t.slot == [[0, 0, 0]]) = true := by decide         -- V-C1
theorem test_unpack : after (exec (.unpack 0) { stateS1 with dataIn := 0xBA }) (fun t => t.slot == [[5, 3, 2]]) = true := by decide -- V-C2

/-- V-C10: only 0x5678 is used, and T makes it 0x7856. -/
theorem test_unpack_little : after (exec (.unpack 1) { stateC10 with dataIn := 0x12345678 }) (fun t =>
    t.slot == [[0x1F, 0x2A, 0x41], [0x16, 0x2, 0xF]]) = true := by decide

/-- V-S2's write: the slot keeps the raw value. -/
theorem test_writeField : after (exec (.writeField 0 1) { stateS1 with dataIn := 0xFF }) (fun t => t.slot == [[0xFF, 3, 2]]) = true := by decide
theorem test_writeField_truncates : after (exec (.writeField 0 1) { stateS1 with dataIn := 0x1FF }) (fun t => t.slot == [[0xFF, 3, 2]]) = true := by decide
theorem test_readField : answer (exec (.readField 1 1) stateC10) = some ⟨.ok, 0x1F⟩ := by decide                   -- R81: masked
theorem test_readField_missing : answer (exec (.readField 0 9) stateS1) = some ⟨.errNoField, 0⟩ := by decide       -- V-X1
theorem test_extract : answer (exec (.extract 0 1) stateS1) = some ⟨.ok, 0xA0⟩ := by decide                        -- V-C2b
theorem test_extract_little : answer (exec (.extract 0 2) stateC10) = some ⟨.ok, 0x4005⟩ := by decide              -- V-C10
theorem test_serialize : answer (exec (.serialize 0) stateS1) = some ⟨.ok, 0xBA⟩ := by decide                      -- V-S1
theorem test_serialize_little : answer (exec (.serialize 0) stateC10) = some ⟨.ok, 0x5F0D⟩ := by decide            -- V-C10
theorem test_queryShift : answer (exec (.queryShift 1) stateS1) = some ⟨.ok, 5⟩ := by decide                       -- V-L1
theorem test_queryShift_lsb : answer (exec (.queryShift 3) stateC10) = some ⟨.ok, 11⟩ := by decide                 -- V-C10
theorem test_queryMask : answer (exec (.queryMask 2) stateS1) = some ⟨.ok, 3⟩ := by decide                         -- V-L1b
theorem test_queryMask_full : answer (exec (.queryMask 7) stateC9) = some ⟨.ok, 0xFFFFFFFFFFFFFFFF⟩ := by decide   -- V-L3
theorem test_queryLayout : answer (exec .queryLayout stateS1) = some ⟨.ok, 0x188⟩ := by decide                     -- V-Q3
theorem test_readStatus : answer (exec .readStatus stateS1) = some ⟨.ok, 0xC2⟩ := by decide                        -- V-Q2
theorem test_reservedOpE : answer (exec (.reservedOpE 0xE) stateS1) = some ⟨.errIllegal, 0⟩ := by decide           -- R59
theorem test_reservedOpF : answer (exec (.reservedOpF 0xF) State.reset) = some ⟨.errIllegal, 0⟩ := by decide       -- R59

/-- V-X3: N_CONT = 1 and bank 1. -/
theorem test_bank : answer (exec (.readField 1 1) stateS1) = some ⟨.errCsel, 0⟩ := by decide

/-- R100's example: `rd c15, id=9` in UNCONFIGURED gets ERR_STATE. -/
theorem test_priority : answer (exec (.readField 15 9) State.reset) = some ⟨.errState, 0⟩ := by decide

/-- V-E5: the eight bytes reversed. -/
theorem test_transform : transform .little .w64 0x0102030405060708 = 0x0807060504030201 := by decide

/-- The very next step runs the word placed where the block takes its commands from. -/
theorem test_withFetchWord : after (step (State.reset.withFetchWord 32 0x00000001)) (fun t => t.cstate == .config && t.host == []) = true := by decide

/-! ### Witnesses: a state and operands that meet an obligation's hypotheses together -/

/-- The Bool form of "every bank has `n` slots of at most `W` bits". -/
theorem banks_of_all (w : StorageWidth) (slot : List (List Word)) (n : Nat)
    (h : (slot.all fun b => b.length == n && b.all fun v => trunc w.bits v == v) = true) :
    ∀ b ∈ slot, b.length = n ∧ ∀ v ∈ b, trunc w.bits v = v := by
  simpa [List.all_eq_true] using h

theorem inv_stateS1 : stateS1.Inv :=
  ⟨by decide, by decide, by decide, fun _ => ⟨rfl, banks_of_all _ _ _ (by decide)⟩, by decide, by decide, by decide⟩

theorem inv_stateC10 : stateC10.Inv :=
  ⟨by decide, by decide, by decide, fun _ => ⟨rfl, banks_of_all _ _ _ (by decide)⟩, by decide, by decide, by decide⟩

theorem inv_stateC9 : stateC9.Inv :=
  ⟨by decide, by decide, by decide, fun _ => ⟨rfl, banks_of_all _ _ _ (by decide)⟩, by decide, by decide, by decide⟩

theorem inv_stateFull : stateFull.Inv :=
  ⟨by decide, by decide, by decide, fun h => absurd h (by decide), by decide, by decide, by decide⟩

theorem inv_loadingS1 : (loading .w8 fieldsS1).Inv :=
  ⟨by decide, by decide, by decide, fun h => absurd h (by decide), by decide, by decide, by decide⟩

theorem inv_loadingNone : (loading .w8 []).Inv :=
  ⟨by decide, by decide, by decide, fun h => absurd h (by decide), by decide, by decide, by decide⟩

theorem usable_stateS1 : stateS1.Usable 0 := ⟨inv_stateS1, rfl, by decide⟩
theorem usable_stateC10 : stateC10.Usable 1 := ⟨inv_stateC10, rfl, by decide⟩
theorem usable_stateC9 : stateC9.Usable 0 := ⟨inv_stateC9, rfl, by decide⟩

/-- The block of S1 with one cycle to come. -/
def stateOffer (h : HostCycle) : State := { stateS1 with host := [h] }

/-- The block of S1 with a response that waits. -/
def stateWaiting : State := { stateS1 with rsp := some ⟨.ok, 0xBA⟩ }

/-! Encoding -/

theorem witness_DecodeOfEncodeIsTheCommand :
    (Instr.cfgField 255 127).wellFormed = true ∧ (Instr.reservedOpE 0xFFFFFFFE).wellFormed = true := by decide

theorem witness_EncodeOfDecodeIsTheWord : decode 0x007FFF02 = .ok (.cfgField 255 127) := by decide

theorem witness_EveryWordDecodesToItsUniqueRow :
    (∃ r ∈ rows, (0x007FFF02#32 : CmdWord) &&& r.mask = r.pattern) ∧ ∀ r ∈ rows, (0x00000010#32 : CmdWord) &&& r.mask ≠ r.pattern := by
  decide

theorem witness_UnusedBitSetIsIllegal :
    (∃ r ∈ rows, opField 0x00000010 = opField r.pattern ∧ r.mask.getLsbD 4 = true ∧ (0x00000010#32 : CmdWord).getLsbD 4 = true) ∧
    (0x08000001#32 : CmdWord).getLsbD 27 = true ∧ (0x80000001#32 : CmdWord).getLsbD 31 = true := by decide

theorem witness_ReservedOpsAreIllegal : opField 0xFFFFFFFE = 0xE ∧ opField 0x0000000F = 0xF := by decide

/-- Every line form, at the top of its operands' ranges. -/
theorem witness_AssembledLinesAreTheirCommands :
    ([(.nop, .nop), (.cfgBegin 64 .little .lsbFirst, .cfgBegin .w64 .little .lsbFirst),
      (.cfgBegin 8 .big .msbFirst, .cfgBegin .w8 .big .msbFirst), (.cfgField 255 127, .cfgField 255 127),
      (.cfgCommit, .cfgCommit), (.clear 15, .clear 15), (.unpack 15 (2 ^ 64 - 1), .unpack 15),
      (.wr 15 255 (2 ^ 64 - 1), .writeField 15 255), (.rd 15 255, .readField 15 255), (.ext 15 255, .extract 15 255),
      (.ser 15, .serialize 15), (.qShift 255, .queryShift 255), (.qMask 255, .queryMask 255),
      (.qLayout, .queryLayout), (.rdStatus, .readStatus)] : List (AsmLine × Instr)).all
      (fun p => (assemble p.1).any fun c => decide (decode c.cmd = .ok p.2)) = true ∧
    assemble (.word (2 ^ 32 - 1) (2 ^ 64 - 1)) = some ⟨0xFFFFFFFF, 0xFFFFFFFFFFFFFFFF⟩ := by decide

/-! The port, the step and reset -/

/-- A word of a row, and one of no row. -/
theorem witness_StepRunsTheDecodedCommand :
    (stateOffer (.offer ⟨0x9, 0⟩)).host = [.offer ⟨0x9, 0⟩] ∧ (stateOffer (.offer ⟨0x9, 0⟩)).rsp = none ∧
    decode 0x9 = .ok (.serialize 0) ∧
    (stateOffer (.offer ⟨0x10, 0⟩)).host = [.offer ⟨0x10, 0⟩] ∧ decode 0x10 = .error (.unusedBits 0) :=
  ⟨rfl, rfl, by decide, rfl, by decide⟩

/-- `rst` with a command offered and a response waiting; a response taken, and one left; nothing offered; no host. -/
theorem witness_OneCommandInFlight :
    (∃ h rest, { stateWaiting with host := [⟨true, true, 0x9, 0, true⟩] }.host = h :: rest ∧ h.rst = true) ∧
    (∃ h rest r, { stateWaiting with host := [.take] }.host = h :: rest ∧ h.rst = false ∧ h.rspReady = true ∧ stateWaiting.rsp = some r) ∧
    (∃ h rest r, { stateWaiting with host := [.offer ⟨0x9, 0⟩] }.host = h :: rest ∧ h.rst = false ∧ h.rspReady = false ∧ stateWaiting.rsp = some r) ∧
    (∃ h rest, (stateOffer .take).host = h :: rest ∧ h.rst = false ∧ h.cmdValid = false ∧ (stateOffer .take).rsp = none) ∧
    State.reset.host = [] :=
  ⟨⟨_, _, rfl, rfl⟩, ⟨_, _, _, rfl, rfl, rfl, rfl⟩, ⟨_, _, _, rfl, rfl, rfl, rfl⟩, ⟨_, _, rfl, rfl, rfl, rfl⟩, rfl⟩

/-- An illegal word is answered too. -/
theorem witness_EveryAcceptedCommandGetsOneResponse :
    (stateOffer (.offer ⟨0x10, 0⟩)).Inv ∧ (stateOffer (.offer ⟨0x10, 0⟩)).host = [.offer ⟨0x10, 0⟩] ∧
    (stateOffer (.offer ⟨0x10, 0⟩)).rsp = none := ⟨inv_stateS1, rfl, rfl⟩

theorem witness_ResetMeetsTheInvariant :
    ({ nCont := 1 } : Config).wellFormed = true ∧ ({ nCont := 16 } : Config).wellFormed = true := by decide

theorem witness_EveryStepKeepsTheInvariant :
    (stateOffer (.offer ⟨0x5, 0xBA⟩)).Inv ∧ ∃ t, step (stateOffer (.offer ⟨0x5, 0xBA⟩)) = .next t := ⟨inv_stateS1, _, rfl⟩

theorem witness_NoStepIsStuck : stateC10.Inv := inv_stateC10

/-- `rst` in VALID; a step without `rst` in VALID; one after an error. -/
theorem witness_ResetValuesAndOnlyReset :
    ((stateOffer .reset).host = [.reset] ∧ stateS1.cstate = .valid) ∧
    ((stateOffer .take).Inv ∧ (∃ t, step (stateOffer .take) = .next t) ∧ (stateOffer .take).cstate = .valid ∧ HostCycle.take.rst = false) ∧
    ∃ s t : State, s = { stateS1 with lastErr := .errNoField, fault := true, taken := [⟨.errNoField, 0⟩] } ∧ s.Inv ∧ step s = .next t :=
  ⟨⟨rfl, rfl⟩, ⟨inv_stateS1, ⟨_, rfl⟩, rfl, rfl⟩, _, _, rfl,
    ⟨by decide, by decide, by decide, fun _ => ⟨rfl, banks_of_all _ _ _ (by decide)⟩, by decide, by decide, by decide⟩, rfl⟩

/-! Schema loading -/

theorem witness_CfgBeginStartsASchema :
    State.reset.cstate ≠ .valid ∧ stateFull.cstate ≠ .valid ∧ { State.reset with cstate := .error }.cstate ≠ .valid ∧
    stateS1.cstate = .valid := by decide

/-- The first entry, the last one, and a full store. -/
theorem witness_CfgFieldAppendsADescriptor :
    ((loading .w8 []).Inv ∧ (loading .w8 []).cstate = .config ∧ (loading .w8 []).fcount.toNat < 64) ∧
    (∃ s : State, s = loading .w64 ((List.range 63).map fun k => ⟨BitVec.ofNat 8 k, 1⟩) ∧ s.Inv ∧ s.cstate = .config ∧ s.fcount.toNat = 63) ∧
    (stateFull.Inv ∧ stateFull.cstate = .config ∧ stateFull.fcount.toNat = 64) :=
  ⟨⟨inv_loadingNone, rfl, by decide⟩,
    ⟨_, rfl, ⟨by decide, by decide, by decide, fun h => absurd h (by decide), by decide, by decide, by decide⟩, rfl, by decide⟩,
    ⟨inv_stateFull, rfl, by decide⟩⟩

/-- S1, and 64 one-bit fields in a 64-bit word (V-L11). -/
theorem witness_CfgCommitDerivesTheLayout :
    ((loading .w8 fieldsS1).Inv ∧ (loading .w8 fieldsS1).cstate = .config ∧ (loading .w8 fieldsS1).schema? = some fieldsS1 ∧
      passes false (validate fieldsS1 .w8) = true) ∧
    (stateFull.Inv ∧ stateFull.schema?.any (fun ds => passes stateFull.eCount (validate ds .w64)) = true) :=
  ⟨⟨inv_loadingS1, rfl, by decide, by decide⟩, inv_stateFull, by decide⟩

/-- The empty schema of V-L8, and V-L9's, whose sum is 8 modulo 128. -/
theorem witness_CfgCommitRejectsABadSchema :
    ((loading .w16 []).cstate = .config ∧ (loading .w16 []).schema? = some [] ∧ passes false (validate [] .w16) = false) ∧
    ((loading .w8 [⟨1, 127⟩, ⟨2, 9⟩]).schema? = some [⟨1, 127⟩, ⟨2, 9⟩] ∧ passes false (validate [⟨1, 127⟩, ⟨2, 9⟩] .w8) = false) := by
  decide

/-- V-L12: one field a bit wider than the word. -/
theorem witness_ValidationFindsExactlyTheViolations :
    (⟨1, 9⟩ : Descriptor) ∈ [(⟨1, 9⟩ : Descriptor)] ∧ StorageWidth.w8.bits < (⟨1, 9⟩ : Descriptor).width.toNat := by decide

theorem witness_MsbFirstShifts :
    stateS1.Inv ∧ stateS1.cstate = .valid ∧ stateS1.fo = .msbFirst ∧ stateS1.schema? = some fieldsS1 ∧
    stateS1.LayoutAt 0 ⟨5, 7⟩ ∧ stateS1.LayoutAt 2 ⟨0, 7⟩ := ⟨inv_stateS1, rfl, rfl, by decide, by decide, by decide⟩

theorem witness_LsbFirstShifts :
    stateC10.Inv ∧ stateC10.cstate = .valid ∧ stateC10.fo = .lsbFirst ∧ stateC10.schema? = some fieldsC10 ∧
    stateC10.LayoutAt 0 ⟨0, 0x1F⟩ ∧ stateC10.LayoutAt 2 ⟨11, 0x1F⟩ := ⟨inv_stateC10, rfl, rfl, by decide, by decide, by decide⟩

/-- A field as wide as the word. -/
theorem witness_MasksAndOccupiedWidth :
    stateC9.Inv ∧ stateC9.cstate = .valid ∧ stateC9.schema? = some [⟨7, 64⟩] ∧ stateC9.LayoutAt 0 ⟨0, 0xFFFFFFFFFFFFFFFF⟩ ∧
    widthAt [⟨7, 64⟩] 0 = stateC9.wsel.bits := ⟨inv_stateC9, rfl, by decide, by decide, by decide⟩

theorem witness_LayoutBounds :
    stateC10.Inv ∧ stateC10.cstate = .valid ∧ stateC10.schema? = some fieldsC10 ∧ stateC10.LayoutAt 1 ⟨5, 0x3F⟩ :=
  ⟨inv_stateC10, rfl, by decide, by decide⟩

/-- Two fields, and a bit at each end of the word. -/
theorem witness_FieldsPartitionTheWord :
    stateC10.Inv ∧ stateC10.cstate = .valid ∧ stateC10.schema? = some fieldsC10 ∧ stateC10.layout = some (layoutOf .lsbFirst fieldsC10) ∧
    stateC10.LayoutAt 0 ⟨0, 0x1F⟩ ∧ stateC10.LayoutAt 2 ⟨11, 0x1F⟩ ∧ 15 < stateC10.wsel.bits :=
  ⟨inv_stateC10, rfl, by decide, by decide, by decide, by decide, by decide⟩

theorem witness_LayoutIgnoresByteOrder : ∃ t, exec .cfgCommit (loading .w8 fieldsS1) = .next t := ⟨_, rfl⟩

/-- A commit that writes the layout, another command, and a command in VALID. -/
theorem witness_LayoutIsWrittenOnce :
    after (exec .cfgCommit (loading .w8 fieldsS1)) (fun t => t.layout != (loading .w8 fieldsS1).layout) = true ∧
    (∃ t, exec (.cfgField 1 3) (loading .w8 []) = .next t) ∧ ∃ t, exec (.clear 0) stateS1 = .next t ∧ stateS1.cstate = .valid :=
  ⟨by decide, ⟨_, rfl⟩, _, rfl, rfl⟩

/-- CFG_BEGIN, a commit that passes, one that fails, and the port in VALID. -/
theorem witness_ConfigurationStateTransitions :
    after (exec (.cfgBegin .w8 .big .msbFirst) State.reset) (fun t => t.cstate == .config) = true ∧
    after (exec .cfgCommit (loading .w8 fieldsS1)) (fun t => t.cstate == .valid) = true ∧
    after (exec .cfgCommit (loading .w8 [])) (fun t => t.cstate == .error) = true ∧
    after (step (stateOffer .reset)) (fun t => t.cstate == .unconfigured) = true := by decide

theorem witness_StateElementsAndTheirWriters :
    after (exec (.writeField 0 1) stateS1) (fun t => t.slot != stateS1.slot) = true ∧
    after (exec (.readField 0 9) stateS1) (fun t => t.fault != stateS1.fault) = true := by decide

/-! Container commands -/

theorem witness_ClearMakesTheBankEmpty : stateC10.Usable 1 ∧ 2 < stateC10.fcount.toNat := ⟨usable_stateC10, by decide⟩

theorem witness_UnpackTakesEveryField :
    stateC10.Usable 1 ∧ stateC10.FieldAt 2 ⟨3, 5⟩ ∧ stateC10.LayoutAt 2 ⟨11, 0x1F⟩ := ⟨usable_stateC10, by decide, by decide⟩

theorem witness_WriteFieldStoresVerbatim : stateC9.Usable 0 ∧ stateC9.FieldAt 0 ⟨7, 64⟩ := ⟨usable_stateC9, by decide⟩

/-- A slot with bits above its field. -/
theorem witness_ReadFieldReturnsTheObservedValue :
    stateC10.Usable 1 ∧ stateC10.FieldAt 0 ⟨1, 5⟩ ∧ stateC10.rawSlot 1 0 = some 0xFFFF := ⟨usable_stateC10, by decide, by decide⟩

theorem witness_ExtractProjectsOneField :
    stateC10.Usable 1 ∧ stateC10.FieldAt 2 ⟨3, 5⟩ ∧ stateC10.LayoutAt 2 ⟨11, 0x1F⟩ ∧ stateC10.rawSlot 1 2 = some 0x8000 :=
  ⟨usable_stateC10, by decide, by decide, by decide⟩

theorem witness_SerializePacksEveryField :
    stateC10.Usable 1 ∧ stateC10.FieldAt 1 ⟨2, 6⟩ ∧ stateC10.LayoutAt 1 ⟨5, 0x3F⟩ ∧ stateC10.rawSlot 1 1 = some 0x40 :=
  ⟨usable_stateC10, by decide, by decide, by decide⟩

theorem witness_BanksAreDisjoint : bankOf (.unpack 1) = some 1 ∧ (∃ t, exec (.unpack 1) stateC10 = .next t) ∧ 0 ≠ (1#4).toNat :=
  ⟨rfl, ⟨_, rfl⟩, by decide⟩

/-! Queries -/

theorem witness_QueriesReturnShiftAndMask :
    stateC9.Inv ∧ stateC9.cstate = .valid ∧ stateC9.FieldAt 0 ⟨7, 64⟩ ∧ stateC9.LayoutAt 0 ⟨0, 0xFFFFFFFFFFFFFFFF⟩ :=
  ⟨inv_stateC9, rfl, by decide, by decide⟩

theorem witness_QueryLayoutReturnsTheSummary : stateS1.Inv ∧ stateS1.cstate = .valid := ⟨inv_stateS1, rfl⟩

/-! Errors -/

/-- A command in a state its row does not allow, for each row with one, and each row's command in a state it allows. -/
theorem witness_CommandsOutsideTheirStates :
    (CState.valid ∉ allowedStates (.cfgBegin .w8 .big .msbFirst) ∧ .valid ∉ allowedStates .cfgCommit ∧
      .config ∉ allowedStates (.clear 0) ∧ .error ∉ allowedStates .queryLayout ∧ .unconfigured ∉ allowedStates (.queryMask 0)) ∧
    (CState.error ∈ allowedStates (.cfgBegin .w8 .big .msbFirst) ∧ .config ∈ allowedStates .cfgCommit ∧
      .valid ∈ allowedStates (.clear 0) ∧ .error ∈ allowedStates .nop ∧ .valid ∈ allowedStates (.queryMask 0)) ∧
    isReserved .nop = false ∧ ∃ t, exec .nop State.reset = .next t ∧ t.rsp = some ⟨.ok, 0⟩ :=
  ⟨by decide, by decide, rfl, _, rfl, rfl⟩

/-- Each check's failure, the bank numbers and identifiers at their limits, and both ends of a commit. -/
theorem witness_FirstFailingCheckAnswers :
    stateC10.Inv ∧ decode 0x10 = .error (.unusedBits 0) ∧ decode 0xE = .ok (.reservedOpE 0xE) ∧
    (decode 0x3 = .ok .cfgCommit ∧ stateC10.cstate ∉ allowedStates .cfgCommit) ∧
    (decode 0x24 = .ok (.clear 2) ∧ stateC10.cstate ∈ allowedStates (.clear 2) ∧ stateC10.cfg.nCont ≤ (2#4).toNat) ∧
    (decode 0x17 = .ok (.readField 1 0) ∧ (1#4).toNat < stateC10.cfg.nCont ∧ ∀ d ∈ fieldsC10, d.id ≠ 0) ∧
    (decode 0x317 = .ok (.readField 1 3) ∧ stateC10.FieldAt 2 ⟨3, 5⟩) ∧
    ((loading .w8 fieldsS1).Inv ∧ .config ∈ allowedStates .cfgCommit ∧ (loading .w8 fieldsS1).schema? = some fieldsS1) ∧
    ((loading .w8 []).Inv ∧ (loading .w8 []).schema? = some []) :=
  ⟨inv_stateC10, by decide, by decide, by decide, by decide, by decide, by decide, ⟨inv_loadingS1, by decide, by decide⟩,
    inv_loadingNone, by decide⟩

/-- A command accepted with each response code. -/
theorem witness_ErrorResponsesHaveExactlyTheirEffects :
    answer (acceptCommand exec ⟨0x0, 0⟩ stateS1) = some ⟨.ok, 0⟩ ∧ answer (acceptCommand exec ⟨0x10, 0⟩ stateS1) = some ⟨.errIllegal, 0⟩ ∧
    answer (acceptCommand exec ⟨0x1, 0⟩ stateS1) = some ⟨.errState, 0⟩ ∧ answer (acceptCommand exec ⟨0x14, 0⟩ stateS1) = some ⟨.errCsel, 0⟩ ∧
    answer (acceptCommand exec ⟨0xB, 0⟩ stateS1) = some ⟨.errNoField, 0⟩ ∧
    answer (acceptCommand exec ⟨0x3, 0⟩ (loading .w8 [])) = some ⟨.errSchema, 0⟩ := by decide

/-- Two blocks that differ in DATA_IN and in every slot. -/
theorem witness_DataPathHasNoErrors :
    ∃ s' : State, s' = { stateS1 with slot := [[0xFF, 0xFF, 0xFF]], dataIn := 0xFFFFFFFFFFFFFFFF } ∧ bankOf (.unpack 0) = some 0 ∧
      stateS1.Inv ∧ s'.Inv ∧ s' = { stateS1 with slot := s'.slot, dataIn := s'.dataIn } :=
  ⟨_, rfl, rfl, inv_stateS1,
    ⟨by decide, by decide, by decide, fun _ => ⟨rfl, banks_of_all _ _ _ (by decide)⟩, by decide, by decide, by decide⟩, rfl⟩

/-! Byte order and bus width -/

/-- The widest word of each width, and its last byte. -/
theorem witness_TransformReversesTheBytes :
    (trunc 8 0xFF = 0xFF ∧ trunc 16 0xFFFF = 0xFFFF ∧ trunc 32 0xFFFFFFFF = 0xFFFFFFFF ∧
      trunc 64 0xFFFFFFFFFFFFFFFF = 0xFFFFFFFFFFFFFFFF) ∧ 7 < StorageWidth.w64.bits / 8 ∧ 0 < StorageWidth.w8.bits / 8 := by decide

theorem witness_TransformIsAnInvolution : trunc StorageWidth.w16.bits 0xFF00 = 0xFF00 ∧ trunc StorageWidth.w64.bits 1 = 1 := by decide

theorem witness_OneByteWordsHaveNoByteOrder :
    stateS1.Inv ∧ stateS1.wsel = .w8 ∧ (∃ t, exec (.extract 0 1) { stateS1 with bo := .big } = .next t) ∧
    (∃ t, exec (.serialize 0) { stateS1 with bo := .big } = .next t) ∧ ∃ t, exec (.unpack 0) { stateS1 with bo := .big } = .next t :=
  ⟨inv_stateS1, rfl, ⟨_, rfl⟩, ⟨_, rfl⟩, _, rfl⟩

/-- V-C8: DATA_IN words that differ above the storage width only. -/
theorem witness_BusWidthAgainstStorageWidth :
    trunc stateC10.wsel.bits 0xFFFF00000000F00F = trunc stateC10.wsel.bits { stateC10 with dataIn := 0xF00F }.dataIn ∧
    (∃ t, exec (.unpack 1) { stateC10 with dataIn := 0xF00F } = .next t) ∧ stateC10.Inv ∧
    (returnsStorageWord (.serialize 1) = true ∧ ∃ t, exec (.serialize 1) stateC10 = .next t) ∧
    (returnsNothing (.clear 1) = true ∧ ∃ t, exec (.clear 1) stateC10 = .next t) :=
  ⟨by decide, ⟨_, rfl⟩, inv_stateC10, ⟨rfl, _, rfl⟩, rfl, _, rfl⟩

theorem witness_OnlyTwoCommandsReadDataIn :
    (∀ c, Instr.serialize 0 ≠ .unpack c) ∧ (∀ c id, Instr.serialize 0 ≠ .writeField c id) ∧ ∃ t, exec (.serialize 0) stateS1 = .next t :=
  ⟨nofun, nofun, _, rfl⟩

/-! The laws of the container -/

theorem witness_SerializeIsTheOrOfExtracts : stateC10.Usable 1 ∧ stateC10.FieldAt 2 ⟨3, 5⟩ := ⟨usable_stateC10, by decide⟩

/-- The other bank, in the state after the serialize, with its word on DATA_IN. -/
theorem witness_UnpackOfSerializeIsTheMaskedValues :
    ∃ (t u : State) (w : Word), stateC10.Usable 1 ∧ exec (.serialize 1) stateC10 = .next t ∧ t.rsp = some ⟨.ok, w⟩ ∧
      u = { stateC10 with dataIn := w } ∧ u.Usable 0 ∧ u.layout = stateC10.layout ∧ u.fcount = stateC10.fcount ∧
      u.wsel = stateC10.wsel ∧ u.bo = stateC10.bo ∧ u.dataIn = w ∧ stateC10.rawSlot 1 0 = some 0xFFFF ∧ stateC10.LayoutAt 0 ⟨0, 0x1F⟩ :=
  ⟨_, _, _, usable_stateC10, rfl, rfl, rfl, ⟨inv_stateC10, rfl, by decide⟩, rfl, rfl, rfl, rfl, rfl, by decide, by decide⟩

theorem witness_SerializeOfUnpackIsTheWord : stateC9.Usable 0 := usable_stateC9

/-- Another field of the bank, and the same field of another bank. -/
theorem witness_WritesDoNotInterfere :
    stateC10.Usable 1 ∧ stateC10.FieldAt 0 ⟨1, 5⟩ ∧ stateC10.LayoutAt 0 ⟨0, 0x1F⟩ ∧ (∃ t, exec (.writeField 1 1) stateC10 = .next t) ∧
    stateC10.FieldAt 2 ⟨3, 5⟩ ∧ ¬ ((1#4) = 1#4 ∧ 2 = 0) ∧ stateC10.Usable 0 ∧ ¬ ((0#4) = 1#4 ∧ 0 = 0) :=
  ⟨usable_stateC10, by decide, by decide, ⟨_, rfl⟩, by decide, by decide, ⟨inv_stateC10, rfl, by decide⟩, by decide⟩

theorem witness_ReadAfterWriteTruncates : stateC9.Usable 0 ∧ stateC9.FieldAt 0 ⟨7, 64⟩ := ⟨usable_stateC9, by decide⟩

theorem witness_FirstDeclaredFieldIsOnTop :
    stateS1.Usable 0 ∧ stateS1.wsel = .w8 ∧ stateS1.bo = .big ∧ stateS1.fo = .msbFirst ∧
    stateS1.schema? = some [⟨1, 3⟩, ⟨2, 2⟩, ⟨3, 3⟩] ∧ stateS1.LayoutAt 0 ⟨5, 7⟩ ∧ stateS1.LayoutAt 2 ⟨0, 7⟩ :=
  ⟨usable_stateS1, rfl, rfl, rfl, by decide, by decide, by decide⟩

theorem witness_MaskOnWriteGivesTheSameResponses : (stateOffer (.offer ⟨0x106, 0xFF⟩)).Inv := inv_stateS1

/-! Runs -/

theorem witness_EveryRunEndsWithItsResponses : ({ nCont := 16 } : Config).wellFormed = true := by decide

/-- S1, and 64 one-bit fields. -/
theorem witness_BootOrderMakesTheBlockUsable :
    ({ nCont := 1 } : Config).wellFormed = true ∧ passes false (validate fieldsS1 .w8) = true ∧
    passes false (validate ((List.range 64).map fun k => ⟨BitVec.ofNat 8 k, 1⟩) .w64) = true := by decide

end Sys2Proof.Tests
end

section
/-! PROOFS. What a command may write and what a cycle may do, each said once as an inductive relation; the family
`10_state.md` is proved from these two. -/

namespace Sys2Proof.Machine

open Sys2Proof

/-! ### What a command writes before it answers -/

/-- The state a command leaves before its response is put on the port, by what it writes. -/
inductive Writes (s : State) : Instr → State → Prop
  /-- CFG_BEGIN starts a schema (R65). -/
  | start (w : StorageWidth) (bo : ByteOrder) (fo : FieldOrder) (hc : s.cstate ≠ .valid) :
      Writes s (.cfgBegin w bo fo)
        { clearSchemaFlags s with wsel := w, bo := bo, fo := fo, fcount := 0, cstate := .config }
  /-- CFG_FIELD appends a descriptor (R66). -/
  | append (id : Ident) (width : BitVec 7) (hc : s.cstate = .config) :
      Writes s (.cfgField id width) (appendDescriptor { id := id, width := width } s)
  /-- CFG_COMMIT accepts the schema (R67). -/
  | commit (ds : List Descriptor) (hc : s.cstate = .config) (hd : s.schema? = some ds)
      (hp : passes s.eCount (validate ds s.wsel) = true) : Writes s .cfgCommit (commitSchema ds s)
  /-- CFG_COMMIT rejects the schema (R67). -/
  | reject (ds : List Descriptor) (hc : s.cstate = .config) (hd : s.schema? = some ds)
      (hp : passes s.eCount (validate ds s.wsel) = false) :
      Writes s .cfgCommit (rejectSchema (validate ds s.wsel) s)
  /-- CLEAR, UNPACK and WRITE_FIELD write their bank, with a slot a field and at most `W` bits a slot where the
  block holds a schema (R78 to R80). -/
  | bank (i : Instr) (c : BankSel) (b : List Word) (hc : s.cstate = .valid)
      (hi : i = .clear c ∨ i = .unpack c ∨ ∃ id, i = .writeField c id)
      (hb : ∀ ds, s.Holds ds → b.length = s.fcount.toNat ∧ ∀ v ∈ b, trunc s.wsel.bits v = v) :
      Writes s i (setBank c b s)
  /-- Every other command, and every command that a check stops. -/
  | nothing (i : Instr) : Writes s i s

/-- A response put on the port: OK with its data, or an error with its record (R101). -/
inductive Answers (u : State) : State → Prop
  | ok (d : Word) : Answers u (u.answered .ok d)
  | error (e : RspCode) (he : e ≠ .ok) : Answers u (u.erred e)

variable {s t u : State} {i : Instr}

/-- The entries of a bank that the block holds are as wide as the word. -/
theorem bank_fits {ds : List Descriptor} (h : s.Holds ds) {c : Nat} {b : List Word} (hb : s.bank? c = some b) :
    b.length = s.fcount.toNat ∧ ∀ v ∈ b, trunc s.wsel.bits v = v := by
  obtain ⟨r, hr, hle, rfl⟩ := bank_eq_some.mp hb
  obtain ⟨-, hw⟩ := h.bank r (List.mem_of_getElem? hr)
  exact ⟨by rw [List.length_take, min_eq_left hle], fun v hv => hw v (List.mem_of_mem_take hv)⟩

/-- A word unpacks into one slot a field, each as wide as the word at most. -/
theorem unpackWord_fits {ds : List Descriptor} (h : s.Holds ds) {fs : List FieldLayout}
    (hf : s.fieldLayouts? = some fs) (r : Word) :
    (unpackWord fs r).length = s.fcount.toNat ∧ ∀ v ∈ unpackWord fs r, trunc s.wsel.bits v = v := by
  obtain rfl : fieldLayoutsOf s.fo (widths ds) = fs := Option.some.inj (h.fields.symm.trans hf)
  refine ⟨by simp [unpackWord, h.length], fun v hv => ?_⟩
  obtain ⟨f, hmem, rfl⟩ := List.mem_map.mp hv
  obtain ⟨j, hj⟩ := List.mem_iff_getElem?.mp hmem
  obtain ⟨hlt, his, hle⟩ := fieldLayoutsOf_is h.fills s.fo hj
  have h64 := bits_le s.wsel
  rw [trunc_eq_self h64]
  intro k hk
  have hout : ¬ k < (widths ds)[j] := by omega
  simp [getLsbD_takeField his (by omega), hout]

/-- A command's own effect is one of the writes, and then a response. -/
theorem writes_of_effect (h : Effect i s t) : ∃ u, Writes s i u ∧ Answers u t := by
  cases i with
  | nop => exact ⟨s, .nothing _, h ▸ .ok _⟩
  | cfgBegin w bo fo =>
    obtain ⟨hc, rfl⟩ := h
    exact ⟨_, .start w bo fo hc, .ok _⟩
  | cfgField id width =>
    obtain ⟨hc, rfl⟩ := h
    exact ⟨_, .append id width hc, .ok _⟩
  | cfgCommit =>
    obtain ⟨hc, ds, hd, ⟨hp, rfl⟩ | ⟨hp, rfl⟩⟩ := h
    · exact ⟨_, .commit ds hc hd hp, .ok _⟩
    · exact ⟨_, .reject ds hc hd hp, .error _ (by decide)⟩
  | clear c =>
    obtain ⟨hu, b, hb, rfl⟩ := h
    refine ⟨_, .bank _ c _ hu.valid (.inl rfl) fun ds hs => ⟨?_, ?_⟩, .ok _⟩
    · rw [List.length_map, (bank_fits hs hb).1]
    · simp
  | unpack c =>
    obtain ⟨hu, b, fs, -, hf, rfl⟩ := h
    exact ⟨_, .bank _ c _ hu.valid (.inr (.inl rfl)) fun ds hs => unpackWord_fits hs hf _, .ok _⟩
  | writeField c id =>
    obtain ⟨hu, j, b, -, hb, rfl⟩ := h
    refine ⟨_, .bank _ c _ hu.valid (.inr (.inr ⟨id, rfl⟩)) fun ds hs => ⟨?_, fun v hv => ?_⟩, .ok _⟩
    · rw [List.length_set, (bank_fits hs hb).1]
    · rcases List.mem_or_eq_of_mem_set hv with hm | rfl
      · exact (bank_fits hs hb).2 v hm
      · exact trunc_trunc _ _
  | readField c id =>
    obtain ⟨-, _, _, _, _, _, -, -, -, -, -, rfl⟩ := h
    exact ⟨s, .nothing _, .ok _⟩
  | extract c id =>
    obtain ⟨-, _, _, _, _, _, -, -, -, -, -, rfl⟩ := h
    exact ⟨s, .nothing _, .ok _⟩
  | serialize c =>
    obtain ⟨-, _, _, -, -, rfl⟩ := h
    exact ⟨s, .nothing _, .ok _⟩
  | queryShift id =>
    obtain ⟨-, _, _, _, -, -, -, rfl⟩ := h
    exact ⟨s, .nothing _, .ok _⟩
  | queryMask id =>
    obtain ⟨-, _, _, _, -, -, -, rfl⟩ := h
    exact ⟨s, .nothing _, .ok _⟩
  | queryLayout =>
    obtain ⟨-, _, -, rfl⟩ := h
    exact ⟨s, .nothing _, .ok _⟩
  | readStatus => exact ⟨s, .nothing _, h ▸ .ok _⟩
  | reservedOpE cmd => exact h.elim
  | reservedOpF cmd => exact h.elim

/-- Every command that answers a next state writes, and then answers. -/
theorem exec_writes (h : exec i s = .next t) : ∃ u, Writes s i u ∧ Answers u t := by
  rcases exec_cases h with h | ⟨e, he, -, rfl⟩
  · exact writes_of_effect h
  · exact ⟨s, .nothing i, .error e he⟩

/-! ### What a write and a response leave -/

/-- CFG_FIELD touches the store, its count and E_COUNT alone (R66). -/
theorem appendDescriptor_frame (d : Descriptor) (s : State) :
    appendDescriptor d s = { s with
      desc := (appendDescriptor d s).desc, fcount := (appendDescriptor d s).fcount, eCount := (appendDescriptor d s).eCount } := by
  unfold appendDescriptor
  split
  · rfl
  · rfl

/-- A response leaves everything but the error record and the port's response as it was. -/
theorem Answers.frame (ha : Answers u t) : t = { u with lastErr := t.lastErr, fault := t.fault, rsp := t.rsp } := by
  cases ha with
  | ok d => rfl
  | error e he => rfl

/-- `u` is `s` with the same port, error record and parameters. -/
structure SamePort (s u : State) : Prop where
  cfg : u.cfg = s.cfg
  rsp : u.rsp = s.rsp
  taken : u.taken = s.taken
  lastErr : u.lastErr = s.lastErr
  fault : u.fault = s.fault
  dataIn : u.dataIn = s.dataIn
  host : u.host = s.host

/-- No write touches the port, the error record or the parameters. -/
theorem Writes.samePort (hw : Writes s i u) : SamePort s u := by
  cases hw with
  | append id width hc =>
    rw [appendDescriptor_frame]
    exact ⟨rfl, rfl, rfl, rfl, rfl, rfl, rfl⟩
  | start | commit | reject | bank | nothing => exact ⟨rfl, rfl, rfl, rfl, rfl, rfl, rfl⟩

/-! ### What a cycle does -/

/-- The next state of one cycle of the port (R35, R108, R111). -/
inductive Cycles (s : State) : State → Prop
  /-- The host drives nothing, and the block keeps its state. -/
  | idle (hh : s.host = []) : Cycles s s
  | reset (h : HostCycle) (rest : List HostCycle) (hh : s.host = h :: rest) (hr : h.rst = true) :
      Cycles s (.resetFor s.cfg rest)
  | take (h : HostCycle) (rest : List HostCycle) (r : Response) (hh : s.host = h :: rest) (hr : h.rst = false)
      (hs : s.rsp = some r) (ht : h.rspReady = true) : Cycles s (takeResponse r { s with host := rest })
  | wait (h : HostCycle) (rest : List HostCycle) (r : Response) (hh : s.host = h :: rest) (hr : h.rst = false)
      (hs : s.rsp = some r) (ht : h.rspReady = false) : Cycles s { s with host := rest }
  | noOffer (h : HostCycle) (rest : List HostCycle) (hh : s.host = h :: rest) (hr : h.rst = false)
      (hs : s.rsp = none) (hc : h.cmdValid = false) : Cycles s { s with host := rest }
  | run (h : HostCycle) (rest : List HostCycle) (i : Instr) (t : State) (hh : s.host = h :: rest)
      (hr : h.rst = false) (hs : s.rsp = none) (hc : h.cmdValid = true) (hd : decode h.cmd = .ok i)
      (he : exec i { s with host := rest, dataIn := h.dataIn } = .next t) : Cycles s t
  | illegal (h : HostCycle) (rest : List HostCycle) (e : DecodeError) (hh : s.host = h :: rest)
      (hr : h.rst = false) (hs : s.rsp = none) (hc : h.cmdValid = true) (hd : decode h.cmd = .error e) :
      Cycles s (({ s with host := rest, dataIn := h.dataIn } : State).erred .errIllegal)

/-- A step is one cycle of the port. -/
theorem step_cycles (h : step s = .next t) : Cycles s t := by
  unfold step at h
  cases hh : s.host with
  | nil =>
    rw [portStep_idle _ hh, next_inj] at h
    subst h
    exact .idle hh
  | cons c rest =>
    cases hr : c.rst with
    | true =>
      rw [portStep_rst _ hh hr, next_inj] at h
      exact h ▸ .reset c rest hh hr
    | false =>
      cases hs : s.rsp with
      | some r =>
        cases ht : c.rspReady with
        | true =>
          rw [portStep_take _ hh hr hs ht, next_inj] at h
          exact h ▸ .take c rest r hh hr hs ht
        | false =>
          rw [portStep_wait _ hh hr hs ht, next_inj] at h
          exact h ▸ .wait c rest r hh hr hs ht
      | none =>
        cases hc : c.cmdValid with
        | false =>
          rw [portStep_nothing _ hh hr hs hc, next_inj] at h
          exact h ▸ .noOffer c rest hh hr hs hc
        | true =>
          rw [portStep_accept _ hh hr hs hc, acceptCommand_next] at h
          obtain ⟨i, hd, he⟩ | ⟨⟨e, hd⟩, rfl⟩ := h
          · exact .run c rest i t hh hr hs hc hd he
          · exact .illegal c rest e hh hr hs hc hd

end Sys2Proof.Machine
end

section
/-! PROOFS. The invariant: it holds at reset, and every command and every cycle keeps it. It has two parts, the
configuration with what hangs on it, and the error record with the responses. -/

namespace Sys2Proof.Machine

open Sys2Proof

variable {s t u : State} {i : Instr}

/-! ### The two parts -/

/-- The invariant but for the error record: no response and nothing on the port has a part in it. -/
def State.ConfigOk (s : State) : Prop :=
  s.ParamsOk ∧ s.StoreOk ∧ s.LayoutOk ∧ s.SlotsOk ∧ s.AbsentOk ∧ s.FlagsOk

theorem inv_iff : s.Inv ↔ s.ConfigOk ∧ s.ErrorsOk := by
  simp only [State.Inv, State.ConfigOk, and_assoc]

/-! ### The configuration -/

/-- The configuration of a block in CONFIG: nothing but the store has a value, and no check has failed. -/
theorem configOk_of_config (hc : s.cstate = .config) (hp : s.ParamsOk) (hs : s.StoreOk)
    (ha : s.layout = none ∧ s.slot = []) (hf : s.eZero = false ∧ s.eDup = false ∧ s.eSum = false)
    (hn : s.eCount = true → s.fcount.toNat = maxFields) : s.ConfigOk := by
  refine ⟨hp, hs, fun h => ?_, fun h => ?_, fun _ => ha, fun _ => hf, fun h => ?_, fun h => ?_, hn⟩
  all_goals simp [hc] at h

/-- A store with no entry in use holds the empty schema. -/
theorem storeOk_of_empty (h : s.fcount = 0) : s.StoreOk := by
  have hs : s.schema? = some [] := schema_eq_some.mpr ⟨by simp [h], by simp [h]⟩
  exact ⟨by simp [h], by rw [hs]; rfl⟩

theorem resetFor_configOk (cfg : Config) (host : List HostCycle) (h : cfg.wellFormed = true) :
    (State.resetFor cfg host).ConfigOk := by
  refine ⟨h, storeOk_of_empty rfl, fun hv => ?_, fun hv => ?_, fun _ => ⟨rfl, rfl⟩,
    fun _ => ⟨rfl, rfl, rfl⟩, fun hv => ?_, fun _ => ⟨rfl, rfl⟩, fun hv => ?_⟩
  all_goals simp [State.resetFor] at hv

theorem start_configOk (w : StorageWidth) (bo : ByteOrder) (fo : FieldOrder) (hc : s.cstate ≠ .valid)
    (h : s.ConfigOk) :
    State.ConfigOk { clearSchemaFlags s with wsel := w, bo := bo, fo := fo, fcount := 0, cstate := .config } := by
  obtain ⟨hp, -, -, -, ha, -⟩ := h
  exact configOk_of_config rfl hp (storeOk_of_empty rfl) (ha hc) ⟨rfl, rfl, rfl⟩ nofun

/-- A store that is not full takes a descriptor: it stands behind those in use. -/
theorem appendDescriptor_schema {ds : List Descriptor} (hd : s.schema? = some ds) (hn : s.fcount.toNat < maxFields)
    (d : Descriptor) :
    (appendDescriptor d s).fcount.toNat = s.fcount.toNat + 1 ∧ (appendDescriptor d s).schema? = some (ds ++ [d]) := by
  obtain ⟨-, hds⟩ := schema_eq_some.mp hd
  have h64 : s.fcount.toNat < 64 := hn
  have hcount : (s.fcount + 1).toNat = s.fcount.toNat + 1 := by
    rw [BitVec.toNat_add, show (1 : BitVec 7).toNat = 1 from rfl, Nat.mod_eq_of_lt (by omega)]
  simp only [appendDescriptor, if_pos hn, hcount, schema_eq_some, true_and]
  refine ⟨by omega, ?_⟩
  rw [Vector.toList_setIfInBounds, List.take_add_one, List.take_set_of_le (le_refl _), hds]
  simp [hn]

theorem append_configOk (d : Descriptor) (hc : s.cstate = .config) (h : s.ConfigOk) : (appendDescriptor d s).ConfigOk := by
  obtain ⟨hp, ⟨hle, hsome⟩, -, -, ha, hf, -, -, hn⟩ := h
  have hv : s.cstate ≠ .valid := by simp [hc]
  have he : s.cstate ≠ .error := by simp [hc]
  obtain ⟨ds, hds⟩ := Option.isSome_iff_exists.mp hsome
  by_cases hlt : s.fcount.toNat < maxFields
  · obtain ⟨hcount, hschema⟩ := appendDescriptor_schema hds hlt d
    have hstore : (appendDescriptor d s).StoreOk := ⟨by omega, by rw [hschema]; rfl⟩
    have heCount : s.eCount ≠ true := fun h => by have := hn h; omega
    simp only [appendDescriptor, if_pos hlt] at hstore ⊢
    exact configOk_of_config hc hp hstore (ha hv) (hf he) fun h => absurd h heCount
  · have hfull : s.fcount.toNat = maxFields := by omega
    simp only [appendDescriptor, if_neg hlt]
    exact configOk_of_config hc hp ⟨hle, hsome⟩ (ha hv) (hf he) fun _ => hfull

theorem commit_configOk {ds : List Descriptor} (hc : s.cstate = .config) (hd : s.schema? = some ds)
    (hp : passes s.eCount (validate ds s.wsel) = true) (h : s.ConfigOk) : (commitSchema ds s).ConfigOk := by
  obtain ⟨hparams, hstore, -, -, -, hf, -, -, hn⟩ := h
  have he : s.cstate ≠ .error := by simp [hc]
  have hschema : (commitSchema ds s).schema? = some ds := hd
  refine ⟨hparams, hstore, fun _ => ?_, fun _ => ⟨by simp [emptyBanks], fun b hb => ?_⟩, fun hv => absurd rfl hv,
    fun _ => hf he, nofun, nofun, hn⟩
  · rw [hschema]
    exact ⟨hp, rfl⟩
  · obtain rfl : b = List.replicate s.fcount.toNat 0 := List.eq_of_mem_replicate hb
    refine ⟨List.length_replicate, fun v hv => ?_⟩
    obtain rfl : v = 0 := List.eq_of_mem_replicate hv
    exact trunc_zero _

theorem reject_configOk {ds : List Descriptor} (hc : s.cstate = .config) (hd : s.schema? = some ds)
    (hp : passes s.eCount (validate ds s.wsel) = false) (h : s.ConfigOk) :
    (rejectSchema (validate ds s.wsel) s).ConfigOk := by
  obtain ⟨hparams, hstore, -, -, ha, -, -, -, hn⟩ := h
  have hv : s.cstate ≠ .valid := by simp [hc]
  have hschema : (rejectSchema (validate ds s.wsel) s).schema? = some ds := hd
  refine ⟨hparams, hstore, nofun, nofun, fun _ => ha hv, fun he => absurd rfl he, fun _ => ?_, nofun, hn⟩
  rw [hschema]
  simp [hp]

theorem setBank_configOk {c : BankSel} {b : List Word} (hc : s.cstate = .valid) (h : s.Inv)
    (hb : ∀ ds, s.Holds ds → b.length = s.fcount.toNat ∧ ∀ v ∈ b, trunc s.wsel.bits v = v) :
    (setBank c b s).ConfigOk := by
  obtain ⟨ds, hds⟩ := holds_of_inv h hc
  obtain ⟨hl, hw⟩ := hb ds hds
  have hnew := holds_setBank (c := c) hds hl hw
  obtain ⟨hparams, hstore, hlayout, -, -, hflags⟩ := (inv_iff.mp h).1
  exact ⟨hparams, hstore, hlayout, fun _ => ⟨hnew.banks, hnew.bank⟩, fun hv => absurd hc hv, hflags⟩

/-- Whatever a command writes, the configuration stays in order. -/
theorem Writes.configOk (hw : Writes s i u) (h : s.Inv) : u.ConfigOk := by
  have hcfg := (inv_iff.mp h).1
  cases hw with
  | start w bo fo hc => exact start_configOk w bo fo hc hcfg
  | append id width hc => exact append_configOk _ hc hcfg
  | commit ds hc hd hp => exact commit_configOk hc hd hp hcfg
  | reject ds hc hd hp => exact reject_configOk hc hd hp hcfg
  | bank _ c b hc _ hb => exact setBank_configOk hc h hb
  | nothing => exact hcfg

theorem Answers.configOk (ha : Answers u t) (h : u.ConfigOk) : t.ConfigOk := by
  cases ha with
  | ok d => exact h
  | error e he => exact h

/-! ### The error record -/

theorem SamePort.errorsOk (hp : SamePort s u) (h : s.ErrorsOk) : u.ErrorsOk := by
  have hr : u.responses = s.responses := by rw [State.responses, State.responses, hp.taken, hp.rsp]
  rwa [State.ErrorsOk, hr, hp.fault, hp.lastErr]

/-- A command that answers adds its response to those given. -/
theorem answered_responses (hr : u.rsp = none) (e : RspCode) (d : Word) :
    (u.answered e d).responses = u.responses ++ [⟨e, d⟩] := by simp [State.responses, hr]

theorem erred_responses (hr : u.rsp = none) (e : RspCode) : (u.erred e).responses = u.responses ++ [⟨e, 0⟩] := by
  simp [State.responses, hr]

theorem errorCodes_append_ok (rs : List Response) (d : Word) : errorCodes (rs ++ [⟨.ok, d⟩]) = errorCodes rs := by
  simp [errorCodes]

theorem errorCodes_append_error (rs : List Response) {e : RspCode} (he : e ≠ .ok) (d : Word) :
    errorCodes (rs ++ [⟨e, d⟩]) = errorCodes rs ++ [e] := by
  simp [errorCodes, he]

/-- A block with no response waiting answers, and its record is that of the responses. -/
theorem Answers.errorsOk (ha : Answers u t) (hr : u.rsp = none) (h : u.ErrorsOk) : t.ErrorsOk := by
  obtain ⟨hfault, hlast, hdata⟩ := h
  cases ha with
  | ok d =>
    rw [State.ErrorsOk, answered_responses hr, errorCodes_append_ok]
    refine ⟨hfault, hlast, fun r hmem hne => ?_⟩
    rcases List.mem_append.mp hmem with hold | hnew
    · exact hdata r hold hne
    · obtain rfl := List.mem_singleton.mp hnew
      exact absurd rfl hne
  | error e he =>
    rw [State.ErrorsOk, erred_responses hr, errorCodes_append_error _ he]
    refine ⟨by simp, by simp, fun r hmem hne => ?_⟩
    rcases List.mem_append.mp hmem with hold | hnew
    · exact hdata r hold hne
    · obtain rfl := List.mem_singleton.mp hnew
      rfl

/-! ### Commands and cycles -/

/-- A command that runs with no response waiting keeps the invariant. -/
theorem exec_inv (hs : s.rsp = none) (h : s.Inv) (he : exec i s = .next t) : t.Inv := by
  obtain ⟨u, hw, ha⟩ := exec_writes he
  have hport := hw.samePort
  exact inv_iff.mpr ⟨ha.configOk (hw.configOk h),
    ha.errorsOk (hport.rsp.trans hs) (hport.errorsOk (inv_iff.mp h).2)⟩

theorem resetFor_inv (cfg : Config) (host : List HostCycle) (h : cfg.wellFormed = true) :
    (State.resetFor cfg host).Inv :=
  inv_iff.mpr ⟨resetFor_configOk cfg host h, rfl, rfl, nofun⟩

/-- Taking a response moves it from the port to those taken. -/
theorem takeResponse_inv {r : Response} (hs : s.rsp = some r) (h : s.Inv) : (takeResponse r s).Inv := by
  obtain ⟨hcfg, herr⟩ := inv_iff.mp h
  have hr : (takeResponse r s).responses = s.responses := by simp [State.responses, hs]
  refine inv_iff.mpr ⟨hcfg, ?_⟩
  rw [State.ErrorsOk, hr]
  exact herr

theorem Cycles.inv (hc : Cycles s t) (h : s.Inv) : t.Inv := by
  cases hc with
  | reset c rest => exact resetFor_inv _ rest h.1
  | take c rest r _ _ hs => exact takeResponse_inv (s := { s with host := rest }) hs h
  | run c rest i t _ _ hs _ _ he => exact exec_inv (s := { s with host := rest, dataIn := c.dataIn }) hs h he
  | illegal c rest e _ _ hs =>
    have ha : Answers { s with host := rest, dataIn := c.dataIn } _ := .error .errIllegal (by decide)
    exact inv_iff.mpr ⟨ha.configOk (inv_iff.mp h).1, ha.errorsOk hs (inv_iff.mp h).2⟩
  | idle | wait | noOffer => exact h

/-- Settles O12: a step is one cycle, and every cycle keeps the invariant. -/
theorem everyStepKeepsTheInvariant : Obligations.EveryStepKeepsTheInvariant :=
  fun _ _ h hstep => (step_cycles hstep).inv h

/-- Settles O11: the reset values meet each part of the invariant. -/
theorem resetMeetsTheInvariant : Obligations.ResetMeetsTheInvariant :=
  ⟨resetFor_inv .oneBank [] (by decide), fun cfg host h => resetFor_inv cfg host h⟩

end Sys2Proof.Machine
end

section
/-! PROOFS. Who writes what (spec/10_state.md R16, R23, R31), read off `Writes`: a write leaves every element that
is not its own as it was, and the response touches the error record alone. -/

namespace Sys2Proof.Machine

open Sys2Proof

variable {s t u : State} {i : Instr}

/-- LAST_ERR and FAULT change only with an error response (R25). -/
theorem Answers.error_of_record_ne (ha : Answers u t) (h : t.lastErr ≠ u.lastErr ∨ t.fault ≠ u.fault) :
    ∃ r, t.rsp = some r ∧ r.code ≠ .ok := by
  cases ha with
  | ok d => simp at h
  | error e he => exact ⟨⟨e, 0⟩, rfl, he⟩

/-! ### The writers of each element -/

theorem Writes.cstate_ne (hw : Writes s i u) (h : u.cstate ≠ s.cstate) :
    (∃ w bo fo, i = .cfgBegin w bo fo ∧ s.cstate ≠ .valid) ∨ (i = .cfgCommit ∧ s.cstate = .config) := by
  cases hw with
  | start w bo fo hc => exact .inl ⟨w, bo, fo, rfl, hc⟩
  | append id width hc => rw [appendDescriptor_frame] at h; exact absurd rfl h
  | commit ds hc | reject ds hc => exact .inr ⟨rfl, hc⟩
  | bank | nothing => exact absurd rfl h

theorem Writes.axes_ne (hw : Writes s i u) (h : u.wsel ≠ s.wsel ∨ u.bo ≠ s.bo ∨ u.fo ≠ s.fo) :
    ∃ w bo fo, i = .cfgBegin w bo fo := by
  cases hw with
  | start w bo fo hc => exact ⟨w, bo, fo, rfl⟩
  | append id width hc => rw [appendDescriptor_frame] at h; simp at h
  | commit | reject | bank | nothing => simp at h

theorem Writes.store_ne (hw : Writes s i u) (h : u.fcount ≠ s.fcount ∨ u.eCount ≠ s.eCount) :
    (∃ w bo fo, i = .cfgBegin w bo fo) ∨ ∃ id n, i = .cfgField id n := by
  cases hw with
  | start w bo fo hc => exact .inl ⟨w, bo, fo, rfl⟩
  | append id width hc => exact .inr ⟨id, width, rfl⟩
  | commit | reject | bank | nothing => simp at h

theorem Writes.desc_ne (hw : Writes s i u) (h : u.desc ≠ s.desc) : ∃ id n, i = .cfgField id n := by
  cases hw with
  | append id width hc => exact ⟨id, width, rfl⟩
  | start | commit | reject | bank | nothing => exact absurd rfl h

theorem Writes.checks_ne (hw : Writes s i u) (h : u.eZero ≠ s.eZero ∨ u.eDup ≠ s.eDup ∨ u.eSum ≠ s.eSum) :
    (∃ w bo fo, i = .cfgBegin w bo fo) ∨ i = .cfgCommit := by
  cases hw with
  | start w bo fo hc => exact .inl ⟨w, bo, fo, rfl⟩
  | append id width hc => rw [appendDescriptor_frame] at h; simp at h
  | commit | reject => exact .inr rfl
  | bank | nothing => simp at h

theorem Writes.layout_ne (hw : Writes s i u) (h : u.layout ≠ s.layout) : i = .cfgCommit := by
  cases hw with
  | append id width hc => rw [appendDescriptor_frame] at h; exact absurd rfl h
  | commit | reject => rfl
  | start | bank | nothing => exact absurd rfl h

theorem Writes.slot_ne (hw : Writes s i u) (h : u.slot ≠ s.slot) :
    i = .cfgCommit ∨ (∃ c, i = .clear c) ∨ (∃ c, i = .unpack c) ∨ ∃ c id, i = .writeField c id := by
  cases hw with
  | append id width hc => rw [appendDescriptor_frame] at h; exact absurd rfl h
  | commit | reject => exact .inl rfl
  | bank i c b hc hi hb =>
    rcases hi with rfl | rfl | ⟨id, rfl⟩
    · exact .inr (.inl ⟨c, rfl⟩)
    · exact .inr (.inr (.inl ⟨c, rfl⟩))
    · exact .inr (.inr (.inr ⟨c, id, rfl⟩))
  | start | nothing => exact absurd rfl h

/-- A command that names bank `c` writes slots of that bank alone (R23). -/
theorem Writes.rawSlot_eq (hw : Writes s i u) {c : BankSel} (hi : bankOf i = some c) {b : Nat} (hb : b ≠ c.toNat)
    (j : Nat) : u.rawSlot b j = s.rawSlot b j := by
  cases hw with
  | bank i k w hc hk hf =>
    have hkc : k = c := by
      rcases hk with rfl | rfl | ⟨id, rfl⟩
      · exact Option.some.inj hi
      · exact Option.some.inj hi
      · exact Option.some.inj hi
    exact rawSlot_setBank_ne (hkc ▸ hb)
  | nothing => rfl
  | start | append | commit | reject => simp [bankOf] at hi

/-- Settles O35: a bank command writes its own bank or nothing, and the response writes no slot. -/
theorem banksAreDisjoint : Obligations.BanksAreDisjoint := by
  intro i c s t hi he b j hb
  obtain ⟨u, hw, ha⟩ := exec_writes he
  rw [ha.frame]
  exact hw.rawSlot_eq hi hb j

/-- Settles O28: the reset values stand in `resetFor`, and the writers are those of `Writes`. -/
theorem stateElementsAndTheirWriters : Obligations.StateElementsAndTheirWriters := by
  refine ⟨⟨rfl, rfl, rfl, rfl, rfl, by decide, rfl, rfl, rfl, rfl, rfl, fun _ _ => rfl, rfl, rfl⟩, ?_⟩
  intro i s t he
  obtain ⟨u, hw, ha⟩ := exec_writes he
  have hp := hw.samePort
  have hrecord := ha.error_of_record_ne
  rw [hp.lastErr, hp.fault] at hrecord
  have hcstate : u.cstate ≠ s.cstate → (∃ w bo fo, i = .cfgBegin w bo fo) ∨ i = .cfgCommit := fun h =>
    (hw.cstate_ne h).imp (fun ⟨w, bo, fo, hi, _⟩ => ⟨w, bo, fo, hi⟩) fun ⟨hi, _⟩ => hi
  refine ⟨?_, ?_, ?_, ?_, ?_, ?_, ?_, ?_, hrecord, ?_⟩
  all_goals rw [ha.frame]
  · exact hcstate
  · exact hw.axes_ne
  · exact fun h => hw.store_ne (.inl h)
  · exact hw.desc_ne
  · exact fun h => hw.store_ne (.inr h)
  · exact hw.checks_ne
  · exact hw.layout_ne
  · exact hw.slot_ne
  · exact ⟨hp.cfg, hp.host, hp.taken, hp.dataIn⟩

/-! ### The configuration states -/

theorem exec_cstate_ne (he : exec i s = .next t) (h : t.cstate ≠ s.cstate) :
    (∃ w bo fo, i = .cfgBegin w bo fo ∧ s.cstate ≠ .valid) ∨ (i = .cfgCommit ∧ s.cstate = .config) := by
  obtain ⟨u, hw, ha⟩ := exec_writes he
  rw [ha.frame] at h
  exact hw.cstate_ne h

/-- No command leaves VALID. -/
theorem exec_stays_valid (he : exec i s = .next t) (hv : s.cstate = .valid) : t.cstate = .valid := by
  by_contra hne
  rcases exec_cstate_ne he (hv ▸ hne) with ⟨_, _, _, _, hs⟩ | ⟨_, hs⟩
  · exact hs hv
  · simp [hv] at hs

/-- CFG_BEGIN outside VALID goes to CONFIG (R16, R65). -/
theorem execCfgBegin_cstate {w : StorageWidth} {bo : ByteOrder} {fo : FieldOrder}
    (he : exec (.cfgBegin w bo fo) s = .next t) (hs : s.cstate ≠ .valid) : t.cstate = .config := by
  rw [exec, execCfgBegin, requireState, if_pos ((inStateToBegin_iff _).mpr hs), respond_next] at he
  rw [he, answered_cstate]

/-- CFG_COMMIT in CONFIG goes to VALID or to ERROR, as validation has it (R16, R67). -/
theorem execCfgCommit_cstate {ds : List Descriptor} (he : exec .cfgCommit s = .next t) (hs : s.cstate = .config)
    (hd : s.schema? = some ds) :
    t.cstate = if passes s.eCount (validate ds s.wsel) then .valid else .error := by
  rw [exec, execCfgCommit, requireState, if_pos ((inStateToLoad_iff _).mpr hs), hd] at he
  dsimp only at he
  split at he
  · next hp => rw [(respond_next _ _).mp he, if_pos hp, answered_cstate, commitSchema_cstate]
  · next hp => rw [(raise_next _).mp he, if_neg hp, erred_cstate, rejectSchema_cstate]

/-- A cycle leaves VALID only under `rst`. -/
theorem Cycles.rst_of_leaves_valid (hc : Cycles s t) (hv : s.cstate = .valid) (hn : t.cstate ≠ .valid) :
    ∃ h, s.host.head? = some h ∧ h.rst = true := by
  cases hc with
  | reset c rest hh hr => exact ⟨c, by rw [hh]; rfl, hr⟩
  | run c rest i t _ _ _ _ _ he => exact absurd (exec_stays_valid he hv) hn
  | idle | take | wait | noOffer | illegal => exact absurd hv hn

/-- Settles O27: the two commands that move CSTATE, each by its own law; no other writes it, and only a cycle with
`rst` leaves VALID. -/
theorem configurationStateTransitions : Obligations.ConfigurationStateTransitions := by
  refine ⟨⟨rfl, rfl, rfl, rfl⟩, rfl, fun i s t he => ⟨?_, ?_, exec_cstate_ne he⟩, fun s t hstep =>
    (step_cycles hstep).rst_of_leaves_valid⟩
  · rintro ⟨w, bo, fo, rfl⟩ hs
    exact execCfgBegin_cstate he hs
  · rintro rfl hs ds hd
    exact execCfgCommit_cstate he hs hd

end Sys2Proof.Machine
end

section
/-! PROOFS. The STATUS word (spec/10_state.md R26): what a word made of fields shows at each of its bits. -/

namespace Sys2Proof.Machine

open Sys2Proof

/-! ### The fields of a status word -/

/-- A field put at `lo` is read back there. -/
theorem extractLsb'_bitsAt_same {n lo : Nat} (b : BitVec n) (h : lo + n ≤ 64) : (bitsAt n b lo).extractLsb' lo n = b := by
  apply BitVec.eq_of_getLsbD_eq
  intro k hk
  have hlt : lo + k < 64 := by omega
  simp [bitsAt, hk, hlt]

/-- Bits that lie apart from a field show nothing of it. -/
theorem extractLsb'_bitsAt_apart {n lo : Nat} (b : BitVec n) {lo' n' : Nat} (h : lo' + n' ≤ lo ∨ lo + n ≤ lo') :
    (bitsAt n b lo).extractLsb' lo' n' = 0#n' := by
  apply BitVec.eq_of_getLsbD_eq
  intro k hk
  rcases h with h | h
  · have hlt : lo' + k < lo := by omega
    simp [bitsAt, hlt]
  · have hge : b.getLsbD (lo' + k - lo) = false := BitVec.getLsbD_of_ge _ _ (by omega)
    simp [bitsAt, hge]

/-- A bit of a word is its one-bit field. -/
theorem getLsbD_of_extractLsb' {r : Word} {k : Nat} {f : Bool} (h : r.extractLsb' k 1 = BitVec.ofBool f) :
    r.getLsbD k = f := by
  have h0 := congrArg (fun b => b.getLsbD 0) h
  simpa using h0

/-- Settles O39: in every field of the word all its parts but one show nothing. -/
theorem statusWordShowsTheState : Obligations.StatusWordShowsTheState := by
  refine ⟨fun s => ⟨statusWord s, rfl, ?_⟩, rfl, by decide, fun w => by cases w <;> rfl, by decide, by decide⟩
  refine ⟨?_, ?_, ?_, ?_, ?_, getLsbD_of_extractLsb' ?_, getLsbD_of_extractLsb' ?_, getLsbD_of_extractLsb' ?_,
    getLsbD_of_extractLsb' ?_, ?_, ?_, getLsbD_of_extractLsb' ?_, ?_⟩
  all_goals
    simp [statusWord, flagAt, BitVec.extractLsb'_or, extractLsb'_bitsAt_same, extractLsb'_bitsAt_apart]

end Sys2Proof.Machine
end

section
/-! PROOFS. Progress (spec/20_memory.md R35, R36): in a block whose invariant holds every read finds its value, so
every command completes, with one response; and with it what each cycle of the port is. -/

namespace Sys2Proof.Machine

open Sys2Proof

variable {s t u : State} {i : Instr}

/-! ### Commands that complete -/

/-- The command or step answers a next state: neither a fault nor a refusal. -/
def Completes (x : Result) : Prop := ∃ t, x = .next t

namespace Completes

variable {ds : List Descriptor} {c : BankSel} {j : Nat}

theorem next (t : State) : Completes (.next t) := ⟨t, rfl⟩

theorem respond (code : RspCode) (data : Word) : Completes (Machine.respond code data s) := next _

theorem raise (e : RspCode) : Completes (Machine.raise e s) := next _

theorem requireState {allowed : CState → Bool} {x : Result} (hx : allowed s.cstate = true → Completes x) :
    Completes (Machine.requireState allowed s x) := by
  unfold Machine.requireState
  split
  · exact hx ‹_›
  · exact raise _

theorem requireBank {x : Result} (hx : c.toNat < s.cfg.nCont → Completes x) :
    Completes (Machine.requireBank c s x) := by
  unfold Machine.requireBank
  split
  · exact hx ‹_›
  · exact raise _

/-- A command of VALID completes when its body does in a block that holds a schema. -/
theorem inUse (h : s.Inv) {x : Result} (hx : ∀ ds, s.Holds ds → Completes x) :
    Completes (Machine.requireState inStateToUse s x) :=
  requireState fun hv => (holds_of_inv h ((inStateToUse_iff _).mp hv)).elim hx

theorem requireField (h : s.Holds ds) {id : Ident} {body : Nat → Result}
    (hb : ∀ j < s.fcount.toNat, Completes (body j)) : Completes (Machine.requireField id s body) := by
  simp only [Machine.requireField, h.schema]
  split
  · exact raise _
  · next j hj =>
    obtain ⟨hlt, -⟩ := fieldIndex_eq_some.mp hj
    exact hb j (h.length ▸ hlt)

theorem withBank (h : s.Holds ds) (hc : c.toNat < s.cfg.nCont) {body : List Word → Result}
    (hb : ∀ b : List Word, b.length = s.fcount.toNat → Completes (body b)) : Completes (Machine.withBank c s body) := by
  obtain ⟨b, -, hbank, hl, -⟩ := h.exists_bank hc
  simpa only [Machine.withBank, hbank] using hb b hl

theorem withSlot (h : s.Holds ds) (hc : c.toNat < s.cfg.nCont) (hj : j < s.fcount.toNat) {body : Word → Result}
    (hb : ∀ v, Completes (body v)) : Completes (Machine.withSlot c j s body) :=
  withBank h hc fun b hl => by simpa only [List.getElem?_eq_getElem (hl.symm ▸ hj)] using hb _

theorem withLayout (h : s.Holds ds) {body : List FieldLayout → Result}
    (hb : ∀ fs : List FieldLayout, fs.length = s.fcount.toNat → Completes (body fs)) :
    Completes (Machine.withLayout s body) := by
  simpa only [Machine.withLayout, h.fields] using hb _ (by simp [h.length])

theorem withFieldLayout (h : s.Holds ds) (hj : j < s.fcount.toNat) {body : FieldLayout → Result}
    (hb : ∀ f, Completes (body f)) : Completes (Machine.withFieldLayout j s body) :=
  withLayout h fun fs hl => by simpa only [List.getElem?_eq_getElem (hl.symm ▸ hj)] using hb _

end Completes

/-- CFG_COMMIT finds every descriptor in use (R18). -/
theorem execCfgCommit_completes (h : s.Inv) : Completes (execCfgCommit s) := by
  obtain ⟨-, ⟨-, hsome⟩, -⟩ := h
  obtain ⟨ds, hds⟩ := Option.isSome_iff_exists.mp hsome
  refine .requireState fun _ => ?_
  simp only [hds]
  split
  · exact .respond _ _
  · exact .raise _

/-- Every command completes in a block whose invariant holds. -/
theorem exec_completes (h : s.Inv) (i : Instr) : Completes (exec i s) := by
  cases i with
  | nop => exact .next (s.answered .ok 0)
  | cfgBegin w bo fo => exact .requireState fun _ => .respond _ _
  | cfgField id width => exact .requireState fun _ => .respond _ _
  | cfgCommit => exact execCfgCommit_completes h
  | clear c => exact .inUse h fun ds hs => .requireBank fun hc => .withBank hs hc fun _ _ => .respond _ _
  | unpack c =>
    exact .inUse h fun ds hs => .requireBank fun hc => .withBank hs hc fun _ _ => .withLayout hs fun _ _ => .respond _ _
  | writeField c id =>
    exact .inUse h fun ds hs => .requireBank fun hc => .requireField hs fun _ _ => .withBank hs hc fun _ _ => .respond _ _
  | readField c id =>
    exact .inUse h fun ds hs => .requireBank fun hc => .requireField hs fun _ hj => .withSlot hs hc hj fun _ =>
      .withFieldLayout hs hj fun _ => .respond _ _
  | extract c id =>
    exact .inUse h fun ds hs => .requireBank fun hc => .requireField hs fun _ hj => .withSlot hs hc hj fun _ =>
      .withFieldLayout hs hj fun _ => .respond _ _
  | serialize c =>
    exact .inUse h fun ds hs => .requireBank fun hc => .withBank hs hc fun _ _ => .withLayout hs fun _ _ => .respond _ _
  | queryShift id =>
    exact .inUse h fun ds hs => .requireField hs fun _ hj => .withFieldLayout hs hj fun _ => .respond _ _
  | queryMask id =>
    exact .inUse h fun ds hs => .requireField hs fun _ hj => .withFieldLayout hs hj fun _ => .respond _ _
  | queryLayout => exact .inUse h fun ds hs => by simpa only [hs.layout] using .respond _ _
  | readStatus => exact .next (s.answered .ok (statusWord s))
  | reservedOpE cmd => exact .raise _
  | reservedOpF cmd => exact .raise _

/-! ### Accepting a command -/

theorem acceptCommand_of_ok {ex : Instr → State → Result} {k : Command} (hd : decode k.cmd = .ok i) (s : State) :
    acceptCommand ex k s = ex i { s with dataIn := k.dataIn } := by
  simp only [acceptCommand, hd]

theorem acceptCommand_of_error {ex : Instr → State → Result} {k : Command} {e : DecodeError}
    (hd : decode k.cmd = .error e) (s : State) :
    acceptCommand ex k s = .next (({ s with dataIn := k.dataIn } : State).erred .errIllegal) := by
  simp only [acceptCommand, hd, raise_eq]

/-- The block answers every word, of a row or of none (R58, R109). -/
theorem acceptCommand_completes (h : s.Inv) (k : Command) : Completes (acceptCommand exec k s) := by
  cases hd : decode k.cmd with
  | ok i =>
    rw [acceptCommand_of_ok hd]
    exact exec_completes (s := { s with dataIn := k.dataIn }) h i
  | error e =>
    rw [acceptCommand_of_error hd]
    exact .next _

/-- A step completes: only a cycle that accepts a command asks anything of the state. -/
theorem step_completes (h : s.Inv) : Completes (step s) := by
  unfold step
  cases hh : s.host with
  | nil => exact ⟨_, portStep_idle _ hh⟩
  | cons c rest =>
    cases hr : c.rst with
    | true => exact ⟨_, portStep_rst _ hh hr⟩
    | false =>
      cases hs : s.rsp with
      | some r =>
        cases ht : c.rspReady with
        | true => exact ⟨_, portStep_take _ hh hr hs ht⟩
        | false => exact ⟨_, portStep_wait _ hh hr hs ht⟩
      | none =>
        cases hc : c.cmdValid with
        | true =>
          rw [portStep_accept _ hh hr hs hc]
          exact acceptCommand_completes (s := { s with host := rest }) h _
        | false => exact ⟨_, portStep_nothing _ hh hr hs hc⟩

/-- Settles O13: every read of a command finds its value, so the accepting cycle completes, as do all others. -/
theorem noStepIsStuck : Obligations.NoStepIsStuck := fun _ h => step_completes h

/-! ### One response a command -/

/-- A block with no response waiting adds one response to those given, and it is the one that waits. -/
theorem Answers.one_response (ha : Answers u t) (hr : u.rsp = none) :
    ∃ r, t.responses = u.responses ++ [r] ∧ t.rsp = some r := by
  cases ha with
  | ok d => exact ⟨_, answered_responses hr .ok d, rfl⟩
  | error e he => exact ⟨_, erred_responses hr e, rfl⟩

/-- A command writes and answers; a word of no row answers and writes nothing. -/
theorem acceptCommand_writes {k : Command} (h : acceptCommand exec k s = .next t) :
    ∃ u, SamePort { s with dataIn := k.dataIn } u ∧ Answers u t := by
  rcases acceptCommand_next.mp h with ⟨i, -, he⟩ | ⟨-, rfl⟩
  · obtain ⟨u, hw, ha⟩ := exec_writes he
    exact ⟨u, hw.samePort, ha⟩
  · exact ⟨_, ⟨rfl, rfl, rfl, rfl, rfl, rfl, rfl⟩, .error _ (by decide)⟩

/-- Settles O10: the accepting step completes, and an answer is one response. -/
theorem everyAcceptedCommandGetsOneResponse : Obligations.EveryAcceptedCommandGetsOneResponse := by
  intro s h rest hinv hh hr hc hs
  rw [step, portStep_accept _ hh hr hs hc]
  obtain ⟨t, ht⟩ := acceptCommand_completes (s := { s with host := rest }) hinv ⟨h.cmd, h.dataIn⟩
  obtain ⟨u, hp, ha⟩ := acceptCommand_writes ht
  obtain ⟨r, hall, hone⟩ := ha.one_response (hp.rsp.trans hs)
  refine ⟨t, r, ht, ?_, hone, ?_⟩
  · rw [hall, State.responses, hp.taken, hp.rsp, State.responses]
  · rw [ha.frame]
    exact hp.host

/-! ### The cycles of the port -/

/-- Settles O8: the port accepts what is offered to a ready block, and the decoder's verdict says what runs. -/
theorem stepRunsTheDecodedCommand : Obligations.StepRunsTheDecodedCommand := by
  intro s h rest hh hr hc hs
  have haccept := portStep_accept exec hh hr hs hc
  exact ⟨haccept, fun i hd => haccept.trans (acceptCommand_of_ok hd _),
    fun e hd => haccept.trans (acceptCommand_of_error hd _)⟩

/-- Settles O9: the law of each cycle of the port that accepts nothing. -/
theorem oneCommandInFlight : Obligations.OneCommandInFlight := by
  refine ⟨fun s h rest hh hr => portStep_rst exec hh hr, fun s h rest r hh hr hs => ?_,
    fun s h rest hh hr hs hc => portStep_nothing exec hh hr hs hc, fun s hh => portStep_idle exec hh⟩
  cases ht : h.rspReady with
  | true => exact portStep_take exec hh hr hs ht
  | false => exact portStep_wait exec hh hr hs ht

end Sys2Proof.Machine
end

section
/-! PROOFS. The byte order and the bus (spec/20_memory.md R37, R42 to R46): `T` byte by byte, and commands side by
side in two states that differ in DATA_IN or in BO alone. -/

namespace Sys2Proof.Machine

open Sys2Proof

variable {s s' t : State} {i : Instr}

/-! ### The byte-order transform -/

/-- Byte `k` of the word is byte `n - 1 - k` of the reversed word. -/
theorem reverseBytes_byte {n k : Nat} (hn : n ≤ 8) (hk : k < n) (v : Word) :
    (reverseBytes n v).extractLsb' (8 * (n - 1 - k)) 8 = v.extractLsb' (8 * k) 8 := by
  apply BitVec.eq_of_getLsbD_eq
  intro j hj
  have hin : 8 * (n - 1 - k) + j < 8 * n := by omega
  have hbit : 8 * (n - 1 - (8 * (n - 1 - k) + j) / 8) + (8 * (n - 1 - k) + j) % 8 = 8 * k + j := by omega
  rw [BitVec.getLsbD_extractLsb', BitVec.getLsbD_extractLsb', getLsbD_reverseBytes hn, hbit, decide_eq_true hin,
    Bool.true_and]

/-- Settles O44: the law of one byte, at the number of bytes of the storage width. -/
theorem transformReversesTheBytes : Obligations.TransformReversesTheBytes :=
  fun w _ hv => ⟨rfl, transform_width .little w hv, fun _ hk => reverseBytes_byte (bytes_le w).1 hk _⟩

/-- Reversing twice gives the word back: the byte that mirrors a byte's mirror is the byte. -/
theorem reverseBytes_reverseBytes {n : Nat} (hn : n ≤ 8) {v : Word} (hv : trunc (8 * n) v = v) :
    reverseBytes n (reverseBytes n v) = v := by
  have habove := (trunc_eq_self (by omega)).mp hv
  apply BitVec.eq_of_getLsbD_eq
  intro k _
  rw [getLsbD_reverseBytes hn, getLsbD_reverseBytes hn]
  by_cases hk : k < 8 * n
  · have hin : 8 * (n - 1 - k / 8) + k % 8 < 8 * n := by omega
    have hbit : 8 * (n - 1 - (8 * (n - 1 - k / 8) + k % 8) / 8) + (8 * (n - 1 - k / 8) + k % 8) % 8 = k := by omega
    rw [hbit, decide_eq_true hin, decide_eq_true hk, Bool.true_and, Bool.true_and]
  · simp [hk, habove k (by omega)]

/-- Settles O45: in BIG order nothing moves, and in LITTLE order the reversal is its own inverse. -/
theorem transformIsAnInvolution : Obligations.TransformIsAnInvolution := by
  intro bo w v hv
  obtain ⟨hle, hbits⟩ := bytes_le w
  cases bo with
  | big => rfl
  | little => exact reverseBytes_reverseBytes hle (hbits.symm ▸ hv)

/-- `T` of a 1-byte word is the word (R43). -/
theorem transform_w8 (bo : ByteOrder) {v : Word} (hv : trunc 8 v = v) : transform bo .w8 v = v := by
  have habove := (trunc_eq_self (by decide)).mp hv
  cases bo with
  | big => rfl
  | little =>
    apply BitVec.eq_of_getLsbD_eq
    intro k _
    rw [transform, show StorageWidth.w8.bits / 8 = 1 from rfl, getLsbD_reverseBytes (by decide)]
    by_cases hk : k < 8
    · have hbit : 8 * (1 - 1 - k / 8) + k % 8 = k := by omega
      rw [hbit, decide_eq_true (show k < 8 * 1 from hk), Bool.true_and]
    · simp [hk, habove k (by omega)]

/-! ### Words of the storage width -/

/-- A field's projection has no bit outside a word that the field ends in. -/
theorem project_width {f : FieldLayout} {sh w n : Nat} (h : f.Is sh w) (hle : sh + w ≤ n) (hn : n ≤ 64) (v : Word) :
    trunc n (project f v) = project f v := by
  rw [trunc_eq_self hn]
  intro k hk
  have hout : ¬ k < sh + w := by omega
  simp [getLsbD_project h, hout]

/-- So it is in a block that holds a schema. -/
theorem project_fits {ds : List Descriptor} (h : s.Holds ds) {fs : List FieldLayout} {f : FieldLayout} {j : Nat}
    (hfs : s.fieldLayouts? = some fs) (hf : fs[j]? = some f) (v : Word) :
    trunc s.wsel.bits (project f v) = project f v := by
  obtain rfl : fieldLayoutsOf s.fo (widths ds) = fs := Option.some.inj (h.fields.symm.trans hfs)
  obtain ⟨_, his, hle⟩ := fieldLayoutsOf_is h.fills s.fo hf
  exact project_width his hle (bits_le s.wsel) v

/-- Nor has the packed word a bit outside the word. -/
theorem packWord_fits {ds : List Descriptor} (h : s.Holds ds) {fs : List FieldLayout}
    (hfs : s.fieldLayouts? = some fs) (b : List Word) : trunc s.wsel.bits (packWord fs b) = packWord fs b := by
  obtain rfl : fieldLayoutsOf s.fo (widths ds) = fs := Option.some.inj (h.fields.symm.trans hfs)
  exact packWord_width h.fills s.fo b

/-- An observed value is no more than its slot (R22). -/
theorem observed_toNat_le (f : FieldLayout) (v : Word) : (observed f v).toNat ≤ v.toNat := by
  rw [observed, BitVec.toNat_and]
  exact Nat.and_le_left

/-! ### Commands side by side -/

namespace Sim

variable {R : State → State → Prop}

/-- A container command's checks of state and bank. -/
theorem bankChecks {c : BankSel} {x y : Result} (hs : s'.cstate = s.cstate) (hc : s'.cfg = s.cfg)
    (he : ∀ e, R (s.erred e) (s'.erred e)) (hb : UsesBank s c → Sim R x y) :
    Sim R (Machine.requireState inStateToUse s (Machine.requireBank c s x))
      (Machine.requireState inStateToUse s' (Machine.requireBank c s' y)) :=
  requireState hs he fun hv => requireBank hc he fun hlt => hb ⟨(inStateToUse_iff _).mp hv, hlt⟩

/-- CFG_COMMIT of one schema, at one width, with one E_COUNT. -/
theorem cfgCommit (hs : s'.cstate = s.cstate) (hd : s'.schema? = s.schema?) (hw : s'.wsel = s.wsel)
    (hn : s'.eCount = s.eCount) (he : ∀ e, R (s.erred e) (s'.erred e))
    (hok : ∀ ds, R ((commitSchema ds s).answered .ok 0) ((commitSchema ds s').answered .ok 0))
    (hbad : ∀ v, R ((rejectSchema v s).erred .errSchema) ((rejectSchema v s').erred .errSchema)) :
    Sim R (execCfgCommit s) (execCfgCommit s') := by
  refine requireState hs he fun _ => ?_
  rw [hd, hw, hn]
  cases s.schema? with
  | none => exact .fault
  | some ds =>
    dsimp only
    split
    · exact .respond (hok ds)
    · exact .raise (hbad _)

/-- QUERY_LAYOUT of one layout. -/
theorem queryLayout (hs : s'.cstate = s.cstate) (hl : s'.layout = s.layout) (he : ∀ e, R (s.erred e) (s'.erred e))
    (hok : ∀ l : Layout, R (s.answered .ok (layoutWord l.occ s)) (s'.answered .ok (layoutWord l.occ s'))) :
    Sim R (execQueryLayout s) (execQueryLayout s') := by
  refine requireState hs he fun _ => ?_
  rw [hl]
  cases s.layout with
  | none => exact .fault
  | some l => exact .respond (hok l)

/-- Two states related by an update: where the one command answers `t`, the other answers `t` updated. -/
theorem next_of_update {f : State → State} {x y : Result} (h : Sim (fun t t' => t' = f t) x y) (ht : x = .next t) :
    y = .next (f t) := by
  obtain ⟨t', hy, rfl⟩ := h t ht
  exact hy

end Sim

/-- Settles O25: a commit reads no BO, and keeps it. -/
theorem layoutIgnoresByteOrder : Obligations.LayoutIgnoresByteOrder := by
  intro s t bo h
  have hsim : Sim (fun t t' => t' = { t with bo := bo }) (execCfgCommit s) (execCfgCommit { s with bo := bo }) :=
    .cfgCommit rfl rfl rfl rfl (fun _ => rfl) (fun _ => rfl) (fun _ => rfl)
  exact hsim.next_of_update h

/-! ### The byte order of 1-byte words -/

/-- At `W = 8`, whatever BO is, `T` leaves a word of the storage width as it is (R43). -/
theorem transform_bo_w8 (hw : s.wsel = .w8) (bo : ByteOrder) {v : Word} (hv : trunc s.wsel.bits v = v) :
    ({ s with bo := bo } : State).transform v = v := by
  rw [hw] at hv
  rw [State.transform, hw, transform_w8 bo hv]

/-- EXTRACT, SERIALIZE and UNPACK under the two byte orders at `W = 8` (R90). -/
theorem oneByte_sim (hinv : s.Inv) (hw : s.wsel = .w8)
    (hi : (∃ c id, i = .extract c id) ∨ (∃ c, i = .serialize c) ∨ ∃ c, i = .unpack c) :
    Sim (fun t t' => t' = { t with bo := .little }) (exec i { s with bo := .big }) (exec i { s with bo := .little }) := by
  rcases hi with ⟨c, id, rfl⟩ | ⟨c, rfl⟩ | ⟨c, rfl⟩
  · refine .bankChecks rfl rfl (fun _ => rfl) fun hu => .requireField rfl (fun _ => rfl) fun j _ =>
      .withSlot fun b hb => ⟨b, hb, fun v hv => ⟨v, hv, .withFieldLayout rfl fun fs f hfs hf => .respond ?_⟩⟩
    obtain ⟨ds, hds⟩ := holds_of_inv hinv hu.valid
    have hfit := project_fits hds hfs hf v
    rw [transform_bo_w8 hw _ hfit, transform_bo_w8 hw _ hfit]
    rfl
  · refine .bankChecks rfl rfl (fun _ => rfl) fun hu => .withBank fun b hb => ⟨b, hb, .withLayout rfl fun fs hfs =>
      .respond ?_⟩
    obtain ⟨ds, hds⟩ := holds_of_inv hinv hu.valid
    have hfit := packWord_fits hds hfs b
    rw [transform_bo_w8 hw _ hfit, transform_bo_w8 hw _ hfit]
    rfl
  · refine .bankChecks rfl rfl (fun _ => rfl) fun _ => .withBank fun b hb => ⟨b, hb, .withLayout rfl fun fs _ =>
      .respond ?_⟩
    have hop : ∀ bo, ({ s with bo := bo } : State).transform ({ s with bo := bo } : State).dataOperand = s.dataOperand :=
      fun bo => transform_bo_w8 hw bo (trunc_trunc _ _)
    rw [hop, hop]
    rfl

/-- Settles O46: every word the three commands transform at `W = 8` is of one byte. -/
theorem oneByteWordsHaveNoByteOrder : Obligations.OneByteWordsHaveNoByteOrder :=
  ⟨fun bo _ hv => transform_w8 bo hv, fun _ _ _ hinv hw hi => (oneByte_sim hinv hw hi).next_of_update⟩

/-! ### DATA_IN above the word -/

/-- A command in two states that differ in DATA_IN alone: UNPACK and WRITE_FIELD read its low `W` bits, and no other
command reads any (R37, R56). -/
theorem dataIn_sim {d : Word} (hd : (∃ c, i = .unpack c) ∨ (∃ c id, i = .writeField c id) →
      trunc s.wsel.bits d = trunc s.wsel.bits s.dataIn) :
    Sim (fun t t' => t' = { t with dataIn := d }) (exec i s) (exec i { s with dataIn := d }) := by
  cases i with
  | nop => exact .respond rfl
  | cfgBegin w bo fo => exact .requireState rfl (fun _ => rfl) fun _ => .respond rfl
  | cfgField id width =>
    refine .requireState rfl (fun _ => rfl) fun _ => .respond ?_
    unfold appendDescriptor
    split
    · rfl
    · rfl
  | cfgCommit => exact .cfgCommit rfl rfl rfl rfl (fun _ => rfl) (fun _ => rfl) fun _ => rfl
  | clear c => exact .bankChecks rfl rfl (fun _ => rfl) fun _ => .withBank fun b hb => ⟨b, hb, .respond rfl⟩
  | unpack c =>
    have hop : ({ s with dataIn := d } : State).dataOperand = s.dataOperand := hd (.inl ⟨c, rfl⟩)
    refine .bankChecks rfl rfl (fun _ => rfl) fun _ => .withBank fun b hb => ⟨b, hb, .withLayout rfl fun fs _ =>
      .respond ?_⟩
    rw [hop]
    rfl
  | writeField c id =>
    have hop : ({ s with dataIn := d } : State).dataOperand = s.dataOperand := hd (.inr ⟨c, id, rfl⟩)
    refine .bankChecks rfl rfl (fun _ => rfl) fun _ => .requireField rfl (fun _ => rfl) fun j _ =>
      .withBank fun b hb => ⟨b, hb, .respond ?_⟩
    rw [hop]
    rfl
  | readField c id | extract c id =>
    exact .bankChecks rfl rfl (fun _ => rfl) fun _ => .requireField rfl (fun _ => rfl) fun j _ =>
      .withSlot fun b hb => ⟨b, hb, fun v hv => ⟨v, hv, .withFieldLayout rfl fun _ _ _ _ => .respond rfl⟩⟩
  | serialize c =>
    exact .bankChecks rfl rfl (fun _ => rfl) fun _ => .withBank fun b hb => ⟨b, hb, .withLayout rfl fun _ _ =>
      .respond rfl⟩
  | queryShift id | queryMask id =>
    exact .requireState rfl (fun _ => rfl) fun _ => .requireField rfl (fun _ => rfl) fun j _ =>
      .withFieldLayout rfl fun _ _ _ _ => .respond rfl
  | queryLayout => exact .queryLayout rfl rfl (fun _ => rfl) fun _ => rfl
  | readStatus => exact .respond rfl
  | reservedOpE cmd | reservedOpF cmd => exact .raise rfl

/-! ### DATA_OUT -/

/-- A response in keeping with the bus: a storage word has no bit above `W`, and where there is no data DATA_OUT is
0 (R37). -/
def FitsBus (i : Instr) (w : StorageWidth) (r : Response) : Prop :=
  (returnsStorageWord i = true → r.dataOut.toNat < 2 ^ w.bits) ∧
    (returnsNothing i = true ∨ r.code ≠ .ok → r.dataOut = 0)

theorem fitsBus_zero (i : Instr) (w : StorageWidth) (code : RspCode) : FitsBus i w ⟨code, 0⟩ :=
  ⟨fun _ => Nat.two_pow_pos _, fun _ => rfl⟩

/-- OK with a storage word, from a command that returns one. -/
theorem fitsBus_word {w : StorageWidth} {v : Word} (hi : returnsNothing i = false) (hv : trunc w.bits v = v) :
    FitsBus i w ⟨.ok, v⟩ :=
  ⟨fun _ => (trunc_eq_self_iff_lt (bits_le w)).mp hv, by simp [hi]⟩

/-- OK with data that is no storage word. -/
theorem fitsBus_other (w : StorageWidth) (v : Word) (hi : returnsNothing i = false)
    (hs : returnsStorageWord i = false) : FitsBus i w ⟨.ok, v⟩ := by
  simp [FitsBus, hi, hs]

/-- A command's own effect answers within the bus. -/
theorem effect_fitsBus (hinv : s.Inv) (h : Effect i s t) : ∃ r, t.rsp = some r ∧ FitsBus i s.wsel r := by
  cases i with
  | nop => exact ⟨_, by rw [h, answered_rsp], fitsBus_zero _ _ _⟩
  | cfgBegin w bo fo | cfgField id width =>
    obtain ⟨-, rfl⟩ := h
    exact ⟨_, rfl, fitsBus_zero _ _ _⟩
  | cfgCommit =>
    obtain ⟨-, ds, -, ⟨-, rfl⟩ | ⟨-, rfl⟩⟩ := h
    · exact ⟨_, rfl, fitsBus_zero _ _ _⟩
    · exact ⟨_, rfl, fitsBus_zero _ _ _⟩
  | clear c =>
    obtain ⟨-, b, -, rfl⟩ := h
    exact ⟨_, rfl, fitsBus_zero _ _ _⟩
  | unpack c =>
    obtain ⟨-, b, fs, -, -, rfl⟩ := h
    exact ⟨_, rfl, fitsBus_zero _ _ _⟩
  | writeField c id =>
    obtain ⟨-, j, b, -, -, rfl⟩ := h
    exact ⟨_, rfl, fitsBus_zero _ _ _⟩
  | readField c id =>
    obtain ⟨hu, j, b, v, fs, f, -, hb, hv, -, -, rfl⟩ := h
    obtain ⟨ds, hds⟩ := holds_of_inv hinv hu.valid
    have hslot := (bank_fits hds hb).2 v (List.mem_of_getElem? hv)
    rw [trunc_eq_self_iff_lt (bits_le _)] at hslot
    exact ⟨_, rfl, fitsBus_word rfl ((trunc_eq_self_iff_lt (bits_le _)).mpr ((observed_toNat_le f v).trans_lt hslot))⟩
  | extract c id =>
    obtain ⟨hu, j, b, v, fs, f, -, -, -, hfs, hf, rfl⟩ := h
    obtain ⟨ds, hds⟩ := holds_of_inv hinv hu.valid
    exact ⟨_, rfl, fitsBus_word rfl (transform_width _ _ (project_fits hds hfs hf v))⟩
  | serialize c =>
    obtain ⟨hu, b, fs, -, hfs, rfl⟩ := h
    obtain ⟨ds, hds⟩ := holds_of_inv hinv hu.valid
    exact ⟨_, rfl, fitsBus_word rfl (transform_width _ _ (packWord_fits hds hfs b))⟩
  | queryShift id | queryMask id =>
    obtain ⟨-, j, fs, f, -, -, -, rfl⟩ := h
    exact ⟨_, rfl, fitsBus_other _ _ rfl rfl⟩
  | queryLayout =>
    obtain ⟨-, l, -, rfl⟩ := h
    exact ⟨_, rfl, fitsBus_other _ _ rfl rfl⟩
  | readStatus => exact ⟨_, by rw [h, answered_rsp], fitsBus_other _ _ rfl rfl⟩
  | reservedOpE cmd | reservedOpF cmd => exact h.elim

/-- Settles O47: DATA_IN is read through its low `W` bits alone, and every response fits the bus. -/
theorem busWidthAgainstStorageWidth : Obligations.BusWidthAgainstStorageWidth := by
  refine ⟨fun i s t d hd => (dataIn_sim fun _ => hd).next_of_update, fun i s t hinv he => ?_⟩
  rcases exec_cases he with h | ⟨e, -, -, rfl⟩
  · exact effect_fitsBus hinv h
  · exact ⟨_, rfl, fitsBus_zero _ _ _⟩

end Sys2Proof.Machine
end

section
/-! PROOFS. The command encoding (spec/30_encoding.md R50 to R60): a packed word is the sum of its fields in their
places, so each field reads back what was packed; a row fixes every bit of a word outside the fields it uses, so a
word of the row is its fields packed again. -/

namespace Sys2Proof

/-! ### A packed word -/

/-- A field put above every bit of a word adds its value there. -/
theorem toNat_or_field {acc : CmdWord} {a k n : Nat} (x : BitVec n) (hk : n + k ≤ 32) (hacc : acc.toNat = a)
    (ha : a < 2 ^ k) : (acc ||| x.setWidth 32 <<< k).toNat = a + x.toNat * 2 ^ k := by
  have hfit : x.toNat * 2 ^ k < 2 ^ 32 :=
    calc x.toNat * 2 ^ k < 2 ^ n * 2 ^ k := Nat.mul_lt_mul_of_pos_right x.isLt (Nat.two_pow_pos k)
      _ = 2 ^ (n + k) := (Nat.pow_add 2 n k).symm
      _ ≤ 2 ^ 32 := Nat.pow_le_pow_right (by decide) hk
  rw [BitVec.toNat_or, BitVec.toNat_shiftLeft, BitVec.toNat_setWidth_of_le (by omega), hacc, Nat.shiftLeft_eq,
    Nat.mod_eq_of_lt hfit, Nat.or_comm, ← Nat.shiftLeft_eq, ← Nat.shiftLeft_add_eq_or_of_lt ha, Nat.add_comm]

/-- R63's formula as a number. -/
theorem toNat_pack (op : BitVec 4) (csel : BankSel) (id : Ident) (width : BitVec 7) (wsel : BitVec 2) (bo fo : BitVec 1) :
    (pack op csel id width wsel bo fo).toNat = op.toNat + csel.toNat * 2 ^ 4 + id.toNat * 2 ^ 8 + width.toNat * 2 ^ 16
      + wsel.toNat * 2 ^ 23 + bo.toNat * 2 ^ 25 + fo.toNat * 2 ^ 26 := by
  have hop : (op.setWidth 32).toNat = op.toNat := BitVec.toNat_setWidth_of_le (by decide)
  refine toNat_or_field fo (by decide) (toNat_or_field bo (by decide) (toNat_or_field wsel (by decide)
    (toNat_or_field width (by decide) (toNat_or_field id (by decide) (toNat_or_field csel (by decide) hop ?_)
      ?_) ?_) ?_) ?_) ?_
  all_goals omega

/-- Each field of a packed word is the field that was packed. -/
@[simp] theorem fields_pack (op : BitVec 4) (csel : BankSel) (id : Ident) (width : BitVec 7) (wsel : BitVec 2)
    (bo fo : BitVec 1) :
    cselField (pack op csel id width wsel bo fo) = csel ∧ idField (pack op csel id width wsel bo fo) = id ∧
    widthField (pack op csel id width wsel bo fo) = width ∧ wselField (pack op csel id width wsel bo fo) = wsel ∧
    boField (pack op csel id width wsel bo fo) = bo ∧ foField (pack op csel id width wsel bo fo) = fo := by
  refine ⟨?_, ?_, ?_, ?_, ?_, ?_⟩
  all_goals
    apply BitVec.eq_of_toNat_eq
    simp only [cselField, idField, widthField, wselField, boField, foField, BitVec.extractLsb'_toNat, toNat_pack,
      Nat.shiftRight_eq_div_pow]
    omega

/-- A word with nothing in `CMD[31:27]` is its fields, packed. -/
theorem pack_fields {w : CmdWord} (h : w.extractLsb' 27 5 = 0) :
    pack (opField w) (cselField w) (idField w) (widthField w) (wselField w) (boField w) (foField w) = w := by
  have htop : w.toNat / 2 ^ 27 % 2 ^ 5 = 0 := by
    rw [← Nat.shiftRight_eq_div_pow, ← BitVec.extractLsb'_toNat, h]
    rfl
  apply BitVec.eq_of_toNat_eq
  simp only [toNat_pack, opField, cselField, idField, widthField, wselField, boField, foField,
    BitVec.extractLsb'_toNat, Nat.shiftRight_eq_div_pow]
  omega

/-! ### The configuration axes -/

@[simp] theorem ofWsel_toWsel (w : StorageWidth) : StorageWidth.ofWsel w.toWsel = w := by cases w <;> rfl

@[simp] theorem toWsel_ofWsel : ∀ b : BitVec 2, (StorageWidth.ofWsel b).toWsel = b := by decide

@[simp] theorem byteOrder_ofBit_toBit (bo : ByteOrder) : ByteOrder.ofBit bo.toBit = bo := by cases bo <;> rfl

@[simp] theorem byteOrder_toBit_ofBit : ∀ b : BitVec 1, (ByteOrder.ofBit b).toBit = b := by decide

@[simp] theorem fieldOrder_ofBit_toBit (fo : FieldOrder) : FieldOrder.ofBit fo.toBit = fo := by cases fo <;> rfl

@[simp] theorem fieldOrder_toBit_ofBit : ∀ b : BitVec 1, (FieldOrder.ofBit b).toBit = b := by decide

/-! ### Decoding an encoded command -/

/-- The laws of `Encoded`, for every command. -/
theorem encode_fits_rowOf (i : Instr) : Laws.Encoded.Statement i := by
  cases i with
  | nop => exact Laws.Encoded.nop
  | cfgBegin w bo fo => exact Laws.Encoded.cfgBegin w bo fo
  | cfgField id width => exact Laws.Encoded.cfgField id width
  | cfgCommit => exact Laws.Encoded.cfgCommit
  | clear c => exact Laws.Encoded.clear c
  | unpack c => exact Laws.Encoded.unpack c
  | writeField c id => exact Laws.Encoded.writeField c id
  | readField c id => exact Laws.Encoded.readField c id
  | extract c id => exact Laws.Encoded.extract c id
  | serialize c => exact Laws.Encoded.serialize c
  | queryShift id => exact Laws.Encoded.queryShift id
  | queryMask id => exact Laws.Encoded.queryMask id
  | queryLayout => exact Laws.Encoded.queryLayout
  | readStatus => exact Laws.Encoded.readStatus
  | reservedOpE cmd => exact Laws.Encoded.reservedOpE cmd
  | reservedOpF cmd => exact Laws.Encoded.reservedOpF cmd

/-- A command's row reads every operand back from its word. -/
theorem rowOf_build_encode (i : Instr) : (rowOf i).build (encode i) = i := by
  cases i with
  | nop | cfgCommit | queryLayout | readStatus | reservedOpE cmd | reservedOpF cmd => rfl
  | cfgBegin w bo fo => simp [rowOf, rowCfgBegin, encode]
  | cfgField id width => simp [rowOf, rowCfgField, encode]
  | clear c | unpack c | serialize c => simp [rowOf, rowClear, rowUnpack, rowSerialize, encode]
  | writeField c id | readField c id | extract c id => simp [rowOf, rowWriteField, rowReadField, rowExtract, encode]
  | queryShift id | queryMask id => simp [rowOf, rowQueryShift, rowQueryMask, encode]

/-- Settles O2: the word fits the command's row, and the row reads every operand back from it. -/
theorem decodeOfEncodeIsTheCommand : Obligations.DecodeOfEncodeIsTheCommand := by
  intro i hi
  rw [decode_of_fits (rowOf_mem i) (encode_fits_rowOf i hi), rowOf_build_encode]

/-! ### Encoding a decoded word -/

theorem Row.fits_iff {r : Row} {w : CmdWord} : r.fits w = true ↔ w &&& r.mask = r.pattern := beq_iff_eq

/-- A word that decodes fits a row, which builds its command. -/
theorem fits_of_decode {w : CmdWord} {i : Instr} (h : decode w = .ok i) : ∃ r ∈ rows, r.fits w = true ∧ r.build w = i := by
  cases hr : rowOfWord w with
  | none => simp [decode, hr] at h
  | some r =>
    exact ⟨r, List.mem_of_find?_eq_some hr, List.find?_some (p := fun r : Row => r.fits w) hr, by simpa [decode, hr] using h⟩

/-- A row looks for OP and for zeros. -/
theorem rows_pattern_eq_op : ∀ r ∈ rows, r.pattern = (opField r.pattern).setWidth 32 := by decide

/-- A word of a row has a 0 wherever the row's mask has a bit outside OP. -/
theorem getLsbD_of_fits {r : Row} (hr : r ∈ rows) {w : CmdWord} (h : r.fits w = true) {k : Nat} (hk : 4 ≤ k)
    (hm : r.mask.getLsbD k = true) : w.getLsbD k = false := by
  have hp : r.pattern.getLsbD k = false := by
    rw [rows_pattern_eq_op r hr, BitVec.getLsbD_setWidth, BitVec.getLsbD_of_ge _ _ hk, Bool.and_false]
  rwa [← Row.fits_iff.mp h, BitVec.getLsbD_and, hm, Bool.and_true] at hp

/-- So a field that the mask covers is 0. -/
theorem extractLsb'_of_fits {r : Row} (hr : r ∈ rows) {w : CmdWord} (h : r.fits w = true) {k n : Nat} (hk : 4 ≤ k)
    (hm : r.mask.extractLsb' k n = BitVec.allOnes n) : w.extractLsb' k n = 0 := by
  apply BitVec.eq_of_getLsbD_eq
  intro j hj
  have hbit : r.mask.getLsbD (k + j) = true := by
    have hall := congrArg (BitVec.getLsbD · j) hm
    simpa [BitVec.getLsbD_extractLsb', hj] using hall
  simp [BitVec.getLsbD_extractLsb', getLsbD_of_fits hr h (by omega) hbit]

/-- A row takes a field whole or leaves it whole: what its mask says of the field's lowest bit settles the field. -/
theorem field_of_fits {r : Row} (hr : r ∈ rows) {w : CmdWord} (h : r.fits w = true) {k n : Nat} (hk : 4 ≤ k)
    (hm : r.mask.getLsbD k = true → r.mask.extractLsb' k n = BitVec.allOnes n) :
    (if r.mask.getLsbD k then 0 else w.extractLsb' k n) = w.extractLsb' k n := by
  split
  · next hb => exact (extractLsb'_of_fits hr h hk (hm hb)).symm
  · rfl

/-- A word of a row that looks at `CMD[31:27]` is the row's OP and the fields the row leaves, packed. -/
theorem pack_of_fits {r : Row} (hr : r ∈ rows) {w : CmdWord} (h : r.fits w = true)
    (htop : r.mask.extractLsb' 27 5 = BitVec.allOnes 5) :
    pack (opField r.pattern) (if r.mask.getLsbD 4 then 0 else cselField w) (if r.mask.getLsbD 8 then 0 else idField w)
      (if r.mask.getLsbD 16 then 0 else widthField w) (if r.mask.getLsbD 23 then 0 else wselField w)
      (if r.mask.getLsbD 25 then 0 else boField w) (if r.mask.getLsbD 26 then 0 else foField w) = w := by
  have hcsel : ∀ r ∈ rows, r.mask.getLsbD 4 = true → r.mask.extractLsb' 4 4 = BitVec.allOnes 4 := by decide
  have hid : ∀ r ∈ rows, r.mask.getLsbD 8 = true → r.mask.extractLsb' 8 8 = BitVec.allOnes 8 := by decide
  have hwidth : ∀ r ∈ rows, r.mask.getLsbD 16 = true → r.mask.extractLsb' 16 7 = BitVec.allOnes 7 := by decide
  have hwsel : ∀ r ∈ rows, r.mask.getLsbD 23 = true → r.mask.extractLsb' 23 2 = BitVec.allOnes 2 := by decide
  have hbo : ∀ r ∈ rows, r.mask.getLsbD 25 = true → r.mask.extractLsb' 25 1 = BitVec.allOnes 1 := by decide
  have hfo : ∀ r ∈ rows, r.mask.getLsbD 26 = true → r.mask.extractLsb' 26 1 = BitVec.allOnes 1 := by decide
  simp only [cselField, idField, widthField, wselField, boField, foField]
  rw [field_of_fits hr h (by decide) (hcsel r hr), field_of_fits hr h (by decide) (hid r hr),
    field_of_fits hr h (by decide) (hwidth r hr), field_of_fits hr h (by decide) (hwsel r hr),
    field_of_fits hr h (by decide) (hbo r hr), field_of_fits hr h (by decide) (hfo r hr), ← opField_of_fits hr h]
  exact pack_fields (extractLsb'_of_fits hr h (by decide) htop)

/-- The command a row builds from a word of the row is well formed, and its word is that word: a command's row leaves
exactly the fields that the command carries, and a reserved operation carries the word whole. -/
theorem encode_build_of_fits {r : Row} (hr : r ∈ rows) {w : CmdWord} (h : r.fits w = true) :
    (r.build w).wellFormed = true ∧ encode (r.build w) = w := by
  have hpack := pack_of_fits hr h
  have hop := opField_of_fits hr h
  simp only [rows, List.mem_cons, List.not_mem_nil, or_false] at hr
  rcases hr with rfl | rfl | rfl | rfl | rfl | rfl | rfl | rfl | rfl | rfl | rfl | rfl | rfl | rfl | rfl | rfl
  · exact ⟨rfl, hpack (by decide)⟩
  · have hw : encode (rowCfgBegin.build w) = pack 0x1 0 0 0 (wselField w) (boField w) (foField w) := by
      simp [rowCfgBegin, encode]
    exact ⟨rfl, hw.trans (hpack (by decide))⟩
  iterate 12 exact ⟨rfl, hpack (by decide)⟩
  · exact ⟨beq_iff_eq.mpr hop, rfl⟩
  · exact ⟨beq_iff_eq.mpr hop, rfl⟩

/-- Settles O3: a word that decodes fits the row that builds its command. -/
theorem encodeOfDecodeIsTheWord : Obligations.EncodeOfDecodeIsTheWord := by
  intro w i h
  obtain ⟨r, hr, hw, rfl⟩ := fits_of_decode h
  exact encode_build_of_fits hr hw

end Sys2Proof
end

section
/-! PROOFS. The command encoding at the port: which words are illegal (spec/30_encoding.md R58 to R60), and which
commands read DATA_IN (R56). -/

namespace Sys2Proof.Machine

open Sys2Proof

/-! ### Words of the spec -/

/-- Settles O1: the decoder evaluates on each word. -/
theorem wordsOfTheSpecDecode : Obligations.WordsOfTheSpecDecode := by
  unfold Obligations.WordsOfTheSpecDecode
  decide

/-! ### Words of no row -/

theorem acceptCommand_of_no_fit {w : CmdWord} (h : ∀ r ∈ rows, r.fits w = false) (d : Word) (s : State) :
    acceptCommand exec { cmd := w, dataIn := d } s = .next (({ s with dataIn := d } : State).erred .errIllegal) :=
  acceptCommand_of_error (decode_of_no_fit h) s

/-- Settles O4: a row fixes OP and OP tells the row; a word of no row is refused by the decoder. -/
theorem everyWordDecodesToItsUniqueRow : Obligations.EveryWordDecodesToItsUniqueRow := by
  intro w
  refine ⟨fun r hr r' hr' h h' => ?_, fun r hr h => decode_of_fits hr (Row.fits_iff.mpr h), fun h => ?_⟩
  · have hop := opField_of_fits hr (Row.fits_iff.mpr h)
    have hop' := opField_of_fits hr' (Row.fits_iff.mpr h')
    rw [row_of_op hr hr' (hop.symm.trans hop')]
  · exact acceptCommand_of_no_fit fun r hr => Bool.eq_false_iff.mpr fun hfit => h r hr (Row.fits_iff.mp hfit)

/-! ### Reserved operations and unused bits -/

/-- A word with a reserved OP is of the reserved row, whatever its other bits. -/
theorem decode_of_reserved_op {w : CmdWord} (h : opField w = 0xE ∨ opField w = 0xF) :
    decode w = .ok (.reservedOpE w) ∨ decode w = .ok (.reservedOpF w) := by
  rcases h with h | h
  · exact .inl (decode_of_fits (rowOf_mem (.reservedOpE w)) (Laws.Encoded.reservedOpE w (beq_iff_eq.mpr h)))
  · exact .inr (decode_of_fits (rowOf_mem (.reservedOpF w)) (Laws.Encoded.reservedOpF w (beq_iff_eq.mpr h)))

theorem acceptCommand_of_reserved_op {w : CmdWord} (h : opField w = 0xE ∨ opField w = 0xF) (d : Word) (s : State) :
    acceptCommand exec { cmd := w, dataIn := d } s = .next (({ s with dataIn := d } : State).erred .errIllegal) := by
  rcases decode_of_reserved_op h with hd | hd
  · rw [acceptCommand_of_ok hd, exec, execReservedOpE, raise_eq]
  · rw [acceptCommand_of_ok hd, exec, execReservedOpF, raise_eq]

/-- Settles O6: the reserved rows' commands answer ERR_ILLEGAL in every state. -/
theorem reservedOpsAreIllegal : Obligations.ReservedOpsAreIllegal :=
  ⟨fun _ d s h => acceptCommand_of_reserved_op h d s, fun _ s => ⟨raise_eq _ s, raise_eq _ s⟩⟩

/-- Every row but the two reserved ones looks at `CMD[31:27]`. -/
theorem getLsbD_mask_top {r : Row} (hr : r ∈ rows) (ho : ¬ (opField r.pattern = 0xE ∨ opField r.pattern = 0xF)) {k : Nat}
    (hk : 27 ≤ k) (hlt : k < 32) : r.mask.getLsbD k = true := by
  have htop : ∀ r ∈ rows, ¬ (opField r.pattern = 0xE ∨ opField r.pattern = 0xF) →
      ∀ j : Fin 5, r.mask.getLsbD (27 + j) = true := by decide
  have h := htop r hr ho ⟨k - 27, by omega⟩
  rwa [show 27 + (k - 27) = k by omega] at h

/-- Settles O5: a word with such a bit fits no row, unless its OP is reserved, and then it is illegal anyway. -/
theorem unusedBitSetIsIllegal : Obligations.UnusedBitSetIsIllegal := by
  intro w d s h
  by_cases ho : opField w = 0xE ∨ opField w = 0xF
  · exact acceptCommand_of_reserved_op ho d s
  · refine acceptCommand_of_no_fit (fun r hr => Bool.eq_false_iff.mpr fun hfit => ?_) d s
    have hop := opField_of_fits hr hfit
    rcases h with ⟨r', hr', hop', k, hk, hm, hw⟩ | ⟨k, hk, hw⟩
    · obtain rfl := row_of_op hr hr' (hop.symm.trans hop')
      simp [getLsbD_of_fits hr hfit hk hm] at hw
    · have hm := getLsbD_mask_top hr (hop ▸ ho) hk (BitVec.lt_of_getLsbD hw)
      simp [getLsbD_of_fits hr hfit (by omega) hm] at hw

/-! ### DATA_IN -/

/-- Settles O48: the two commands apart, two states that differ in DATA_IN go side by side. -/
theorem onlyTwoCommandsReadDataIn : Obligations.OnlyTwoCommandsReadDataIn := by
  intro i s t d hu hw
  refine (dataIn_sim ?_).next_of_update
  rintro (⟨c, hi⟩ | ⟨c, id, hi⟩)
  · exact absurd hi (hu c)
  · exact absurd hi (hw c id)

end Sys2Proof.Machine
end

section
/-! PROOFS. The assembly language (spec/30_encoding.md R63, R64): a line that assembles is the encoding of the one
command its mnemonic names. -/

namespace Sys2Proof.Machine

open Sys2Proof

/-! ### What assembles -/

theorem assemble_eq_some {l : AsmLine} {c : Command} :
    assemble l = some c ↔ l.wellFormed = true ∧ c = { cmd := l.cmdWord, dataIn := l.dataWord } := by
  unfold assemble
  split
  · next h => rw [Option.some.injEq, and_iff_right h, eq_comm]
  · next h => simp [h]

@[simp] theorem bankInRange_iff {c : Nat} : bankInRange c = true ↔ c < 16 := decide_eq_true_iff

@[simp] theorem idInRange_iff {id : Nat} : idInRange id = true ↔ id < 256 := decide_eq_true_iff

@[simp] theorem widthInRange_iff {n : Nat} : widthInRange n = true ↔ n < 128 := decide_eq_true_iff

@[simp] theorem dataInRange_iff {d : Nat} : dataInRange d = true ↔ d < 2 ^ 64 := decide_eq_true_iff

/-- A `w<n>` operand names the width of `n` bits. -/
theorem bits_of_widthOfBits {n : Nat} {w : StorageWidth} (h : widthOfBits n = some w) : w.bits = n := by
  unfold widthOfBits at h
  split_ifs at h with h8 h16 h32 h64
  all_goals
    cases h
    simp [StorageWidth.bits, *]

/-! ### The command of a line -/

theorem eq_of_decode_encode {i j : Instr} (hi : i.wellFormed = true) (h : decode (encode i) = .ok j) : j = i := by
  rw [decodeOfEncodeIsTheCommand i hi, Except.ok.injEq] at h
  exact h.symm

/-- The word of a line that is no `.word` is the word of a command. -/
theorem cmdWord_eq_encode {l : AsmLine} (hl : ∀ a b, l ≠ .word a b) : ∃ i, i.wellFormed = true ∧ l.cmdWord = encode i := by
  cases l with
  | word a b => exact absurd rfl (hl a b)
  | _ =>
    unfold AsmLine.cmdWord
    exact ⟨_, rfl, rfl⟩

/-- Settles O7: a line that assembles has its numbers in range, so each is the value of its field, and the word is
the encoding of one command. -/
theorem assembledLinesAreTheirCommands : Obligations.AssembledLinesAreTheirCommands := by
  refine ⟨fun c i l h hl hd => ?_, fun c l h hl => ?_, fun a b ha hb => ?_, fun l => ?_⟩
  · obtain ⟨hwf, rfl⟩ := assemble_eq_some.mp h
    cases l with
    | nop | cfgCommit | qLayout | rdStatus => exact ⟨eq_of_decode_encode rfl hd, rfl, rfl⟩
    | cfgBegin n bo fo =>
      obtain ⟨w, hw⟩ := Option.isSome_iff_exists.mp hwf
      have hword : (AsmLine.cfgBegin n bo fo).cmdWord = encode (.cfgBegin w bo fo) := by simp [AsmLine.cmdWord, hw]
      refine ⟨w, bits_of_widthOfBits hw, eq_of_decode_encode rfl (hword ▸ hd), rfl, ?_⟩
      simp [hword, encode, toNat_pack]
    | cfgField id n =>
      have ⟨hid, hn⟩ : id < 256 ∧ n < 128 := by simpa [AsmLine.wellFormed] using hwf
      refine ⟨eq_of_decode_encode rfl hd, ?_, rfl⟩
      simp [AsmLine.cmdWord, encode, toNat_pack, Nat.mod_eq_of_lt hid, Nat.mod_eq_of_lt hn]
    | clear b | ser b =>
      have hb : b < 16 := bankInRange_iff.mp hwf
      refine ⟨eq_of_decode_encode rfl hd, ?_, rfl⟩
      simp [AsmLine.cmdWord, encode, toNat_pack, Nat.mod_eq_of_lt hb]
    | unpack b d =>
      have ⟨hb, hdata⟩ : b < 16 ∧ d < 2 ^ 64 := by simpa [AsmLine.wellFormed] using hwf
      refine ⟨eq_of_decode_encode rfl hd, ?_, (BitVec.toNat_ofNat d 64).trans (Nat.mod_eq_of_lt hdata)⟩
      simp [AsmLine.cmdWord, encode, toNat_pack, Nat.mod_eq_of_lt hb]
    | wr b id d =>
      have ⟨⟨hb, hid⟩, hdata⟩ : (b < 16 ∧ id < 256) ∧ d < 2 ^ 64 := by simpa [AsmLine.wellFormed] using hwf
      refine ⟨eq_of_decode_encode rfl hd, ?_, (BitVec.toNat_ofNat d 64).trans (Nat.mod_eq_of_lt hdata)⟩
      simp [AsmLine.cmdWord, encode, toNat_pack, Nat.mod_eq_of_lt hb, Nat.mod_eq_of_lt hid]
    | rd b id | ext b id =>
      have ⟨hb, hid⟩ : b < 16 ∧ id < 256 := by simpa [AsmLine.wellFormed] using hwf
      refine ⟨eq_of_decode_encode rfl hd, ?_, rfl⟩
      simp [AsmLine.cmdWord, encode, toNat_pack, Nat.mod_eq_of_lt hb, Nat.mod_eq_of_lt hid]
    | qShift id | qMask id =>
      have hid : id < 256 := idInRange_iff.mp hwf
      refine ⟨eq_of_decode_encode rfl hd, ?_, rfl⟩
      simp [AsmLine.cmdWord, encode, toNat_pack, Nat.mod_eq_of_lt hid]
    | word a b => exact hl a b rfl
  · obtain ⟨-, rfl⟩ := assemble_eq_some.mp h
    obtain ⟨i, hi, hw⟩ := cmdWord_eq_encode hl
    exact ⟨i, hw ▸ decodeOfEncodeIsTheCommand i hi⟩
  · have hwf : (AsmLine.word a b).wellFormed = true := by
      rw [AsmLine.wellFormed, Bool.and_eq_true, decide_eq_true_iff, dataInRange_iff]
      exact ⟨ha, hb⟩
    exact assemble_eq_some.mpr ⟨hwf, rfl⟩
  · simp [Option.isSome_iff_exists, assemble_eq_some]

end Sys2Proof.Machine
end

section
/-! PROOFS. Schema loading (spec/40_layout.md R65 to R68, R76): what each of the three commands answers in each of
its cases, and validation in the words of R68. -/

namespace Sys2Proof.Machine

open Sys2Proof

variable {s t u : State} {i : Instr} {ds : List Descriptor}

/-! ### The check of the state -/

theorem requireState_of_allowed {allowed : CState → Bool} (h : allowed s.cstate = true) (body : Result) :
    requireState allowed s body = body := if_pos h

theorem requireState_of_refused {allowed : CState → Bool} (h : allowed s.cstate = false) (body : Result) :
    requireState allowed s body = .next (s.erred .errState) := if_neg (by simp [h])

/-! ### CFG_BEGIN and CFG_FIELD -/

/-- Settles O15: outside VALID the check lets CFG_BEGIN write its axes and clear the store's count and the flags; in
VALID it answers ERR_STATE. -/
theorem cfgBeginStartsASchema : Obligations.CfgBeginStartsASchema := by
  refine fun w bo fo s => ⟨fun hs => ?_, fun hs => ?_⟩
  · exact requireState_of_allowed ((inStateToBegin_iff _).mpr hs) _
  · exact requireState_of_refused (by rw [hs]; rfl) _

theorem execCfgField_eq (hs : s.cstate = .config) (id : Ident) (width : BitVec 7) :
    exec (.cfgField id width) s = .next ((appendDescriptor { id := id, width := width } s).answered .ok 0) :=
  requireState_of_allowed ((inStateToLoad_iff _).mpr hs) _

/-- Appending writes one entry of the store, the one at FCOUNT. -/
theorem appendDescriptor_desc_ne (d : Descriptor) {j : Fin maxFields} (hj : j.val ≠ s.fcount.toNat) :
    (appendDescriptor d s).desc[j] = s.desc[j] := by
  unfold appendDescriptor
  split
  · exact Vector.getElem_setIfInBounds_ne j.isLt hj.symm
  · rfl

/-- While the store has room, appending sets no flag. -/
theorem appendDescriptor_eCount (d : Descriptor) (h : s.fcount.toNat < maxFields) :
    (appendDescriptor d s).eCount = s.eCount := by
  rw [appendDescriptor, if_pos h]

theorem appendDescriptor_full (d : Descriptor) (h : s.fcount.toNat = maxFields) :
    appendDescriptor d s = { s with eCount := true } := if_neg h.not_lt

/-- Settles O16: CFG_FIELD answers after `appendDescriptor`, which writes the entry at FCOUNT while the store has room
and E_COUNT alone of a full store. -/
theorem cfgFieldAppendsADescriptor : Obligations.CfgFieldAppendsADescriptor := by
  intro id width s hinv hs
  obtain ⟨-, ⟨-, hsome⟩, -⟩ := hinv
  obtain ⟨ds, hds⟩ := Option.isSome_iff_exists.mp hsome
  rw [execCfgField_eq hs]
  refine ⟨fun hroom => ?_, fun hfull => ?_⟩
  · obtain ⟨hcount, hschema⟩ := appendDescriptor_schema hds hroom ⟨id, width⟩
    refine ⟨_, ds, rfl, hds, hschema, hcount, fun j hj => appendDescriptor_desc_ne _ hj, ?_⟩
    conv_lhs => rw [appendDescriptor_frame, appendDescriptor_eCount _ hroom]
    rfl
  · rw [appendDescriptor_full _ hfull]

/-! ### Validation -/

theorem validate_zero_iff (ds : List Descriptor) (w : StorageWidth) :
    (validate ds w).zero = true ↔ ∃ d ∈ ds, d.width = 0 := by
  simp [validate]

theorem validate_dup_iff (ds : List Descriptor) (w : StorageWidth) :
    (validate ds w).dup = true ↔ ¬ (ds.map Descriptor.id).Nodup := hasDup_eq_true

theorem validate_badSum_iff (ds : List Descriptor) (w : StorageWidth) :
    (validate ds w).badSum = true ↔ (validate ds w).sum ≠ w.bits := by
  simp [validate]

/-- Identifiers repeat where two descriptors at different places have the same one. -/
theorem not_nodup_ids_iff (ds : List Descriptor) :
    ¬ (ds.map Descriptor.id).Nodup ↔
      ∃ (i j : Nat) (d d' : Descriptor), i < j ∧ ds[i]? = some d ∧ ds[j]? = some d' ∧ d.id = d'.id := by
  simp only [List.nodup_iff_getElem?_ne_getElem?, List.getElem?_map, List.length_map, ne_eq, not_forall, not_not]
  constructor
  · rintro ⟨i, j, hij, hj, h⟩
    rw [List.getElem?_eq_getElem hj, List.getElem?_eq_getElem (hij.trans hj)] at h
    exact ⟨i, j, ds[i], ds[j], hij, List.getElem?_eq_getElem _, List.getElem?_eq_getElem hj, Option.some.inj h⟩
  · rintro ⟨i, j, d, d', hij, hd, hd', h⟩
    exact ⟨i, j, hij, (List.getElem?_eq_some_iff.mp hd').1, by simp [hd, hd', h]⟩

/-- One width is at most the sum. -/
theorem width_le_sum (w : StorageWidth) {d : Descriptor} (hd : d ∈ ds) : d.width.toNat ≤ (validate ds w).sum :=
  List.le_sum_of_mem (List.mem_map_of_mem hd)

/-! ### Sums of widths, by field index -/

theorem widthAt_eq_getElem {j : Nat} (hj : j < (widths ds).length) : widthAt ds j = (widths ds)[j] := by
  rw [widths_length] at hj
  simp [widthAt, widths, List.getElem?_eq_getElem hj]

/-- The widths declared before field `n`. -/
theorem sum_take_widths {n : Nat} (hn : n ≤ ds.length) :
    ((widths ds).take n).sum = ∑ j ∈ Finset.range n, widthAt ds j := by
  induction n with
  | zero => rfl
  | succ n ih =>
    have hlt : n < (widths ds).length := by rw [widths_length]; exact hn
    rw [sum_take_succ _ hlt, ih (Nat.le_of_succ_le hn), Finset.sum_range_succ, widthAt_eq_getElem hlt]

theorem sum_widths (ds : List Descriptor) : (widths ds).sum = ∑ j ∈ Finset.range ds.length, widthAt ds j := by
  rw [← sum_take_widths le_rfl, List.take_of_length_le (widths_length ds).le]

/-- The widths declared from field `n` on. -/
theorem sum_drop_widths {n : Nat} (hn : n ≤ ds.length) :
    ((widths ds).drop n).sum = ∑ j ∈ Finset.Ico n ds.length, widthAt ds j := by
  have hsplit := List.sum_take_add_sum_drop (widths ds) n
  rw [sum_take_widths hn, sum_widths, ← Finset.sum_range_add_sum_Ico _ hn] at hsplit
  exact Nat.add_left_cancel hsplit

/-- Settles O19: each check is the violation it is named after, and one width above `W` makes the sum exceed `W`. -/
theorem validationFindsExactlyTheViolations : Obligations.ValidationFindsExactlyTheViolations := by
  refine fun ds w e => ⟨?_, ?_, sum_widths ds, validate_badSum_iff ds w, ?_, fun d hd hw => ?_⟩
  · rw [validate_zero_iff]
    simp only [List.mem_iff_getElem?]
    exact ⟨fun ⟨d, ⟨i, hi⟩, h⟩ => ⟨i, d, hi, h⟩, fun ⟨i, d, hi, h⟩ => ⟨d, ⟨i, hi⟩, h⟩⟩
  · rw [validate_dup_iff, not_nodup_ids_iff]
  · simp [passes, and_assoc]
  · have := width_le_sum w hd
    exact (validate_badSum_iff ds w).mpr (by omega)

/-! ### CFG_COMMIT -/

theorem execCfgCommit_of_passes (hs : s.cstate = .config) (hd : s.schema? = some ds)
    (hp : passes s.eCount (validate ds s.wsel) = true) :
    exec .cfgCommit s = .next ((commitSchema ds s).answered .ok 0) := by
  rw [exec, execCfgCommit, requireState_of_allowed ((inStateToLoad_iff _).mpr hs), hd]
  exact if_pos hp

theorem execCfgCommit_of_fails (hs : s.cstate = .config) (hd : s.schema? = some ds)
    (hp : passes s.eCount (validate ds s.wsel) = false) :
    exec .cfgCommit s = .next ((rejectSchema (validate ds s.wsel) s).erred .errSchema) := by
  rw [exec, execCfgCommit, requireState_of_allowed ((inStateToLoad_iff _).mpr hs), hd]
  exact if_neg (by simp [hp])

/-- Settles O18: a commit that fails writes the three checks' results, each the violation it is named after. -/
theorem cfgCommitRejectsABadSchema : Obligations.CfgCommitRejectsABadSchema := by
  intro s ds hs hd hp
  have hzero := validate_zero_iff ds s.wsel
  have hdup := validate_dup_iff ds s.wsel
  have hsum := validate_badSum_iff ds s.wsel
  rw [show (validate ds s.wsel).sum = _ from sum_widths ds] at hsum
  rw [execCfgCommit_of_fails hs hd hp, rejectSchema, setSchemaFlags, Bool.eq_iff_iff.mpr (hzero.trans decide_eq_true_iff.symm),
    Bool.eq_iff_iff.mpr (hdup.trans decide_eq_true_iff.symm), Bool.eq_iff_iff.mpr (hsum.trans decide_eq_true_iff.symm)]

/-! ### The writer of the layout -/

/-- The one write of the layout is the commit that passes: from CONFIG into VALID. -/
theorem Writes.layout_ne_locks (hw : Writes s i u) (h : u.layout ≠ s.layout) : s.cstate = .config ∧ u.cstate = .valid := by
  cases hw with
  | commit ds hc => exact ⟨hc, rfl⟩
  | append id width hc => rw [appendDescriptor_frame] at h; exact absurd rfl h
  | start | reject | bank | nothing => exact absurd rfl h

/-- Settles O26: only the commit that passes writes the layout, it runs in CONFIG, and no command leaves VALID. -/
theorem layoutIsWrittenOnce : Obligations.LayoutIsWrittenOnce := by
  intro i s t he
  obtain ⟨u, hw, ha⟩ := exec_writes he
  have hlayout : t.layout = u.layout := by rw [ha.frame]
  have hcstate : t.cstate = u.cstate := by rw [ha.frame]
  have hlocks : t.layout ≠ s.layout → s.cstate = .config ∧ t.cstate = .valid := by
    rw [hlayout, hcstate]
    exact hw.layout_ne_locks
  refine ⟨fun hi => ?_, hlocks, fun hv => ⟨exec_stays_valid he hv, ?_⟩⟩
  · rw [hlayout]
    exact not_imp_comm.mp hw.layout_ne hi
  · by_contra hne
    exact absurd (hlocks hne).1 (by simp [hv])

end Sys2Proof.Machine
end

section
/-! PROOFS. The layout (spec/40_layout.md R69 to R75): the shifts as sums over the fields declared after or before, the
masks as numbers, and the fields of a block in VALID as a partition of its word. -/

namespace Sys2Proof.Machine

open Sys2Proof

variable {s : State} {ds : List Descriptor} {i j k : Nat} {f g : FieldLayout}

/-! ### The layout of a schema that fills the word -/

theorem shiftOf_msbFirst (hi : i < ds.length) :
    shiftOf .msbFirst (widths ds) i = ∑ j ∈ Finset.Ico (i + 1) ds.length, widthAt ds j := sum_drop_widths hi

theorem shiftOf_lsbFirst (hi : i < ds.length) :
    shiftOf .lsbFirst (widths ds) i = ∑ j ∈ Finset.range i, widthAt ds j := sum_take_widths hi.le

/-- OCC is wide enough for the sum (R72). -/
theorem layoutOf_occ_toNat {n : Nat} (h : Fills (widths ds) n) (fo : FieldOrder) : (layoutOf fo ds).occ.toNat = n := by
  have := h.le
  rw [layoutOf, BitVec.toNat_ofNat, h.sum, Nat.mod_eq_of_lt (by omega)]

theorem mask_toNat {sh w : Nat} (h : f.Is sh w) : f.mask.toNat = 2 ^ w - 1 := by
  obtain ⟨-, hm, hw⟩ := h
  rw [hm, ones_toNat hw]

/-- A field's unshifted mask, moved to its place, stays below the end of the field. -/
theorem mask_shiftLeft_lt {sh w : Nat} (h : f.Is sh w) : f.mask.toNat * 2 ^ sh < 2 ^ (sh + w) := by
  rw [mask_toNat h, Nat.pow_add, Nat.mul_comm]
  exact Nat.mul_lt_mul_of_pos_left (Nat.sub_lt (Nat.two_pow_pos w) one_pos) (Nat.two_pow_pos sh)

/-- The word-local mask loses no bit of the mask (R71). -/
theorem wordMask_toNat {sh w : Nat} (h : f.Is sh w) (hs : sh + w ≤ 64) : (wordMask f).toNat = f.mask.toNat * 2 ^ f.shift.toNat := by
  have hlt := (mask_shiftLeft_lt h).trans_le (Nat.pow_le_pow_right two_pos hs)
  rw [wordMask, BitVec.toNat_shiftLeft, Nat.shiftLeft_eq, h.1, Nat.mod_eq_of_lt hlt]

/-- Settles O17: the layout committed is `layoutOf`, whose entries have the schema's widths and shifts since these
fill the word. -/
theorem cfgCommitDerivesTheLayout : Obligations.CfgCommitDerivesTheLayout := by
  intro s ds _ hs hd hp
  have hfills := fills_of_passes hp
  refine ⟨layoutOf s.fo ds, execCfgCommit_of_passes hs hd hp, ?_, layoutOf_occ_toNat hfills s.fo, fun i f hf => ?_⟩
  · rw [layoutOf, fieldLayoutsOf_length, widths_length, schema_length hd]
  · obtain ⟨hi, his, -⟩ := fieldLayoutsOf_is hfills s.fo hf
    refine ⟨by rw [widthAt_eq_getElem hi, mask_toNat his], his.1.trans ?_⟩
    rw [widths_length] at hi
    cases s.fo with
    | msbFirst => exact shiftOf_msbFirst hi
    | lsbFirst => exact shiftOf_lsbFirst hi

/-! ### The layout a block in VALID holds -/

theorem holds_of_schema (h : s.Inv) (hv : s.cstate = .valid) (hd : s.schema? = some ds) : s.Holds ds := by
  obtain ⟨ds', hds⟩ := holds_of_inv h hv
  obtain rfl : ds = ds' := Option.some.inj (hd.symm.trans hds.schema)
  exact hds

namespace State.Holds

theorem index_lt (h : s.Holds ds) (hf : s.LayoutAt i f) : i < ds.length := by
  obtain ⟨hi, -⟩ := fieldLayoutsOf_is h.fills s.fo (h.layoutEntry hf)
  rwa [widths_length] at hi

theorem sum_widthAt (h : s.Holds ds) : ∑ j ∈ Finset.range ds.length, widthAt ds j = s.wsel.bits := by
  rw [← sum_widths, h.fills.sum]

theorem widthAt_pos (h : s.Holds ds) (hi : i < ds.length) : 1 ≤ widthAt ds i := by
  have hi' : i < (widths ds).length := by rwa [widths_length]
  rw [widthAt_eq_getElem hi']
  exact h.fills.width_pos hi'

/-- Every width is at least one, so a schema has at most as many fields as bits. -/
theorem length_le (h : s.Holds ds) : ds.length ≤ s.wsel.bits := by
  have := List.length_le_sum_of_one_le (widths ds) h.fills.pos
  rwa [widths_length, h.fills.sum] at this

/-- The empty schema does not fill a word. -/
theorem length_pos (h : s.Holds ds) : 1 ≤ ds.length := by
  by_contra hlen
  have hsum := h.sum_widthAt
  rw [show ds.length = 0 by omega, Finset.sum_range_zero] at hsum
  exact (bits_pos s.wsel).ne hsum

/-! ### The fields as sets of bits -/

theorem getLsbD_wordMask_iff (h : s.Holds ds) (hf : s.LayoutAt i f) (k : Nat) :
    (wordMask f).getLsbD k = true ↔ f.shift.toNat ≤ k ∧ k < f.shift.toNat + widthAt ds i := by
  obtain ⟨his, hle⟩ := h.is hf
  have h64 := bits_le s.wsel
  rw [getLsbD_wordMask his, his.1]
  simp only [Bool.and_eq_true, decide_eq_true_eq]
  omega

/-- Two fields with a bit in common are the same field. -/
theorem index_unique (h : s.Holds ds) (hf : s.LayoutAt i f) (hg : s.LayoutAt j g)
    (hfk : (wordMask f).getLsbD k = true) (hgk : (wordMask g).getLsbD k = true) : i = j := by
  obtain ⟨hi, his, -⟩ := fieldLayoutsOf_is h.fills s.fo (h.layoutEntry hf)
  obtain ⟨hj, hjs, -⟩ := fieldLayoutsOf_is h.fills s.fo (h.layoutEntry hg)
  rw [h.getLsbD_wordMask_iff hf, his.1, widthAt_eq_getElem hi] at hfk
  rw [h.getLsbD_wordMask_iff hg, hjs.1, widthAt_eq_getElem hj] at hgk
  exact fields_unique s.fo hi hj hfk hgk

/-- A bit is in some field's mask exactly when it is a bit of the word. -/
theorem exists_wordMask_iff (h : s.Holds ds) (k : Nat) :
    (∃ i f, s.LayoutAt i f ∧ (wordMask f).getLsbD k = true) ↔ k < s.wsel.bits := by
  constructor
  · rintro ⟨i, f, hf, hk⟩
    rw [h.getLsbD_wordMask_iff hf] at hk
    obtain ⟨his, hle⟩ := h.is hf
    have := his.1
    omega
  · intro hk
    obtain ⟨i, hi, hlo, hhi⟩ := shiftOf_cover s.fo (widths ds) (h.fills.sum ▸ hk)
    obtain ⟨f, hf⟩ := h.exists_layout (i := i) (by rwa [← h.length, ← widths_length])
    obtain ⟨his, -⟩ := h.is hf
    refine ⟨i, f, hf, (h.getLsbD_wordMask_iff hf k).mpr ?_⟩
    rw [his.1, widthAt_eq_getElem hi]
    exact ⟨hlo, hhi⟩

end State.Holds

/-! ### The statements -/

/-- Settles O20: the shift is the sum over the fields after the field, which is empty for the last one, and with the
first field's width makes up the sum of all. -/
theorem msbFirstShifts : Obligations.MsbFirstShifts := by
  refine ⟨fun s ds i f hinv hv hfo hd hf => ?_, by decide⟩
  have h := holds_of_schema hinv hv hd
  obtain ⟨⟨hsh, -⟩, -⟩ := h.is hf
  have hi := h.index_lt hf
  rw [hfo, shiftOf_msbFirst hi] at hsh
  refine ⟨hsh, fun hlast => ?_, fun hfirst => ?_⟩
  · rw [hlast, Finset.Ico_self, Finset.sum_empty] at hsh
    exact BitVec.eq_of_toNat_eq hsh
  · subst hfirst
    rw [hsh, Nat.add_comm, ← h.sum_widthAt, Finset.range_eq_Ico, Finset.sum_eq_sum_Ico_succ_bot hi]

/-- Settles O21: the shift is the sum over the fields before the field, which is empty for the first one, and with the
last field's width makes up the sum of all. -/
theorem lsbFirstShifts : Obligations.LsbFirstShifts := by
  refine ⟨fun s ds i f hinv hv hfo hd hf => ?_, by decide, rfl⟩
  have h := holds_of_schema hinv hv hd
  obtain ⟨⟨hsh, -⟩, -⟩ := h.is hf
  rw [hfo, shiftOf_lsbFirst (h.index_lt hf)] at hsh
  refine ⟨hsh, fun hfirst => ?_, fun hlast => ?_⟩
  · rw [hfirst, Finset.sum_range_zero] at hsh
    exact BitVec.eq_of_toNat_eq hsh
  · rw [hsh, ← h.sum_widthAt, ← hlast, Finset.sum_range_succ]

/-- Settles O22: a field's mask and its word-local mask as numbers, and OCC as the sum that fills the word. -/
theorem masksAndOccupiedWidth : Obligations.MasksAndOccupiedWidth := by
  intro s ds hinv hv hd
  have h := holds_of_schema hinv hv hd
  have hocc := layoutOf_occ_toNat h.fills s.fo
  refine ⟨fun i f hf => ?_, _, h.layout, hocc.trans h.sum_widthAt.symm, hocc⟩
  obtain ⟨his, hle⟩ := h.is hf
  have hmask := mask_toNat his
  exact ⟨hmask, fun hw => hw ▸ hmask, wordMask_toNat his (hle.trans (bits_le s.wsel))⟩

/-- Settles O23: widths are positive and fill the word, and every field ends inside it. -/
theorem layoutBounds : Obligations.LayoutBounds := by
  intro s ds hinv hv hd
  have h := holds_of_schema hinv hv hd
  refine ⟨h.length ▸ h.length_pos, h.length ▸ h.length_le, h.length, fun i f hf => ?_⟩
  obtain ⟨his, hle⟩ := h.is hf
  have hpos := h.widthAt_pos (h.index_lt hf)
  have hmask : f.mask.toNat ≤ 2 ^ s.wsel.bits - 1 := by
    rw [mask_toNat his]
    exact Nat.sub_le_sub_right (Nat.pow_le_pow_right two_pos (by omega)) 1
  have hword := (mask_shiftLeft_lt his).trans_le (Nat.pow_le_pow_right two_pos hle)
  rw [Nat.shiftLeft_eq, his.1]
  exact ⟨hpos, by omega, hle, by omega, hmask, hword⟩

/-- Settles O24: two fields with a bit in common are one, and every bit of the word is in a field. -/
theorem fieldsPartitionTheWord : Obligations.FieldsPartitionTheWord := by
  intro s ds l hinv hv hd hl
  have h := holds_of_schema hinv hv hd
  refine ⟨fun i f hf => h.getLsbD_wordMask_iff hf, fun i j f g hf hg hne => ?_, ?_, fun k hk => ?_⟩
  · apply BitVec.eq_of_getLsbD_eq
    intro k _
    rw [BitVec.getLsbD_and, BitVec.ofNat_eq_ofNat, BitVec.getLsbD_zero, Bool.and_eq_false_imp]
    exact fun hfk => Bool.eq_false_iff.mpr fun hgk => hne (h.index_unique hf hg hfk hgk)
  · apply BitVec.eq_of_getLsbD_eq
    intro k _
    rw [Bool.eq_iff_iff, getLsbD_orAll, getLsbD_ones (bits_le _), decide_eq_true_iff, ← h.exists_wordMask_iff]
    simp [List.mem_iff_getElem?, State.LayoutAt, hl]
  · obtain ⟨i, f, hf, hfk⟩ := (h.exists_wordMask_iff k).mpr hk
    exact ⟨i, ⟨f, hf, hfk⟩, fun j ⟨g, hg, hgk⟩ => h.index_unique hg hf hgk hfk⟩

end Sys2Proof.Machine
end

section
/-! PROOFS. The block that masks on write (spec/41_container.md R84): a command cannot tell two states apart that
differ in raw slot bits above the fields alone, so the two blocks go side by side from one state, cycle by cycle. -/

namespace Sys2Proof.Machine

open Sys2Proof

variable {s t u : State} {ds : List Descriptor} {fs : List FieldLayout} {f : FieldLayout} {b b' : List Word} {v : Word}
  {i : Nat} {c : BankSel}

/-! ### What is observed of a bank -/

theorem observedBank_getElem? (fs : List FieldLayout) (b : List Word) (hf : fs[i]? = some f) :
    (observedBank fs b)[i]? = b[i]?.map (observed f) := by
  rw [observedBank, List.getElem?_zipWith, hf]
  cases b[i]? with
  | none => rfl
  | some v => rfl

/-- A bank cut to the fields is observed as the bank is. -/
theorem observedBank_take (fs : List FieldLayout) (b : List Word) :
    observedBank fs (b.take fs.length) = observedBank fs b := by
  induction fs generalizing b with
  | nil => simp [observedBank]
  | cons f fs ih =>
    cases b with
    | nil => rfl
    | cons v b => exact congrArg (observed f v :: ·) (ih b)

/-- A slot written is observed in its place. -/
theorem observedBank_set (b : List Word) (hf : fs[i]? = some f) (v : Word) :
    observedBank fs (b.set i v) = (observedBank fs b).set i (observed f v) := by
  induction fs generalizing b i with
  | nil => simp at hf
  | cons g fs ih =>
    cases b with
    | nil => simp [observedBank]
    | cons u b =>
      cases i with
      | zero =>
        obtain rfl : g = f := by simpa using hf
        rfl
      | succ i => exact congrArg (observed g u :: ·) (ih b (by simpa using hf))

/-- The packed word is made of observed values alone (R83). -/
theorem packWord_observedBank (fs : List FieldLayout) (b : List Word) :
    packWord fs (observedBank fs b) = packWord fs b := by
  induction fs generalizing b with
  | nil => rfl
  | cons f fs ih =>
    cases b with
    | nil => rfl
    | cons v b =>
      have hhead : project f (observed f v) = project f v := by rw [project, observed_observed, project]
      exact congrArg₂ (· ||| ·) hhead (ih b)

/-! ### States that differ in no observed value -/

theorem sameObserved_refl (s : State) : SameObserved s s := ⟨rfl, rfl⟩

theorem observedSlots_of_layout {l : Layout} (hl : s.layout = some l) :
    s.observedSlots = s.slot.map (observedBank l.fields) := by
  simp only [State.observedSlots, hl]

theorem SameObserved.layout_eq (hso : SameObserved s t) : t.layout = s.layout := by rw [hso.1]

/-- Where there is a layout, the banks are observed alike one by one. -/
theorem SameObserved.banks (hso : SameObserved s t) (h : s.Holds ds) :
    t.slot.map (observedBank (layoutOf s.fo ds).fields) = s.slot.map (observedBank (layoutOf s.fo ds).fields) := by
  rw [← observedSlots_of_layout h.layout, ← observedSlots_of_layout (hso.layout_eq.trans h.layout), hso.2]

/-- A bank of the one state has its like in the other, with the same observed values. -/
theorem SameObserved.bank (hso : SameObserved s t) (h : s.Holds ds) (hb : s.bank? c.toNat = some b) :
    ∃ b', t.bank? c.toNat = some b' ∧ b'.length = b.length ∧
      observedBank (fieldLayoutsOf s.fo (widths ds)) b' = observedBank (fieldLayoutsOf s.fo (widths ds)) b := by
  have ⟨ht, _⟩ := hso
  have hlen := (bank_fits h hb).1
  have hn : (fieldLayoutsOf s.fo (widths ds)).length = s.fcount.toNat := by simp [h.length]
  obtain ⟨r, hr, -, rfl⟩ := bank_eq_some.mp hb
  have hc := congrArg (·[c.toNat]?) (hso.banks h)
  simp only [layoutOf, List.getElem?_map, hr, Option.map_some, Option.map_eq_some_iff] at hc
  obtain ⟨r', hr', heq⟩ := hc
  have hle : s.fcount.toNat ≤ r'.length := by
    have := congrArg List.length heq
    simp only [observedBank, List.length_zipWith, hn] at this
    rw [List.length_take] at hlen
    omega
  refine ⟨r'.take s.fcount.toNat, bank_eq_some.mpr ⟨r', hr', by rw [ht]; exact hle, by rw [ht]⟩, ?_, ?_⟩
  · rw [hlen, List.length_take, min_eq_left hle]
  · rw [← hn, observedBank_take, observedBank_take, heq]

/-- So has a slot, with the same observed value. -/
theorem SameObserved.slot (hso : SameObserved s t) (h : s.Holds ds) (hi : i < s.fcount.toNat)
    (hb : s.bank? c.toNat = some b) :
    ∃ b', t.bank? c.toNat = some b' ∧ ∀ v, b[i]? = some v → ∃ v', b'[i]? = some v' ∧
      ∀ fs f, s.fieldLayouts? = some fs → fs[i]? = some f → observed f v' = observed f v := by
  obtain ⟨b', hb', -, hobs⟩ := hso.bank h hb
  obtain ⟨f, hf⟩ := h.exists_layout hi
  have hf := h.layoutEntry hf
  refine ⟨b', hb', fun v hv => ?_⟩
  have hget := congrArg (·[i]?) hobs
  simp only [observedBank_getElem? _ _ hf, hv, Option.map_some, Option.map_eq_some_iff] at hget
  obtain ⟨v', hv', heq⟩ := hget
  refine ⟨v', hv', fun fs g hfs hg => ?_⟩
  obtain rfl := Option.some.inj (h.fields.symm.trans hfs)
  obtain rfl := Option.some.inj (hf.symm.trans hg)
  exact heq

/-- Banks written with the same observed values. -/
theorem SameObserved.setBank (hso : SameObserved s t) (h : s.Holds ds)
    (hobs : observedBank (fieldLayoutsOf s.fo (widths ds)) b' = observedBank (fieldLayoutsOf s.fo (widths ds)) b) :
    SameObserved (setBank c b s) (Machine.setBank c b' t) := by
  have hs : (Machine.setBank c b s).layout = some (layoutOf s.fo ds) := h.layout
  have ht : (Machine.setBank c b' t).layout = some (layoutOf s.fo ds) := hso.layout_eq.trans h.layout
  refine ⟨by rw [hso.1]; rfl, ?_⟩
  rw [observedSlots_of_layout hs, observedSlots_of_layout ht, setBank_slot, setBank_slot, List.map_set, List.map_set,
    hso.banks h]
  exact congrArg _ hobs

/-- A response, to the same effect on both sides. -/
theorem SameObserved.answered (hso : SameObserved s t) (code : RspCode) (data : Word) :
    SameObserved (s.answered code data) (t.answered code data) := by
  obtain ⟨ht, hobs⟩ := hso
  exact ⟨by rw [ht]; rfl, hobs⟩

theorem SameObserved.erred (hso : SameObserved s t) (e : RspCode) : SameObserved (s.erred e) (t.erred e) := by
  obtain ⟨ht, hobs⟩ := hso
  exact ⟨by rw [ht]; rfl, hobs⟩

/-! ### Commands side by side -/

/-- The field an identifier names is in use. -/
theorem Names.lt {id : Ident} (hn : Names s id i) : i < s.fcount.toNat := by
  obtain ⟨ds, hds, hi⟩ := hn
  obtain ⟨hlt, -⟩ := fieldIndex_eq_some.mp hi
  exact schema_length hds ▸ hlt

/-- The masked WRITE_FIELD beside the verbatim one: what they store is observed as one value (R84). -/
theorem writeField_masked_sim (hinv : s.Inv) (hso : SameObserved s t) (c : BankSel) (id : Ident) :
    Sim SameObserved (execWriteField c id s) (execWriteFieldMasked c id t) := by
  obtain ⟨slot', rfl⟩ : ∃ x, t = { s with slot := x } := ⟨_, hso.1⟩
  refine .bankChecks rfl rfl hso.erred fun hu => .requireField rfl hso.erred fun j hj => .withBank fun b hb => ?_
  obtain ⟨ds, h⟩ := holds_of_inv hinv hu.valid
  obtain ⟨b', hb', -, hobs⟩ := hso.bank h hb
  obtain ⟨f, hf⟩ := h.exists_layout hj.lt
  have hf := h.layoutEntry hf
  have hfields : ({ s with slot := slot' } : State).fieldLayouts? = some (fieldLayoutsOf s.fo (widths ds)) := h.fields
  refine ⟨b', hb', ?_⟩
  simp only [withFieldLayout, withLayout, hfields, hf]
  refine .respond (.answered (hso.setBank h ?_) _ _)
  rw [observedBank_set b' hf, observedBank_set b hf, hobs, observed_observed]
  rfl

/-- A command of this block beside the same command of the block that masks (R84). -/
theorem masked_sim (hinv : s.Inv) (hso : SameObserved s t) (i : Instr) :
    Sim SameObserved (exec i s) (execMasked i t) := by
  obtain ⟨slot', rfl⟩ : ∃ x, t = { s with slot := x } := ⟨_, hso.1⟩
  have ⟨_, hobs⟩ := hso
  have he := hso.erred
  have hok := hso.answered .ok
  cases i with
  | nop | readStatus => exact .respond (hok _)
  | cfgBegin w bo fo => exact .requireState rfl he fun _ => .respond ⟨rfl, hobs⟩
  | cfgField id width =>
    refine .requireState rfl he fun _ => .respond ?_
    unfold appendDescriptor
    split
    · exact ⟨rfl, hobs⟩
    · exact ⟨rfl, hobs⟩
  | cfgCommit => exact .cfgCommit rfl rfl rfl rfl he (fun _ => sameObserved_refl _) fun _ => ⟨rfl, hobs⟩
  | clear c =>
    refine .bankChecks rfl rfl he fun hu => .withBank fun b hb => ?_
    obtain ⟨ds, h⟩ := holds_of_inv hinv hu.valid
    obtain ⟨b', hb', hlen, -⟩ := hso.bank h hb
    refine ⟨b', hb', .respond (.answered (hso.setBank h ?_) _ _)⟩
    rw [List.map_const', List.map_const', hlen]
  | unpack c =>
    refine .bankChecks rfl rfl he fun hu => .withBank fun b hb => ?_
    obtain ⟨ds, h⟩ := holds_of_inv hinv hu.valid
    obtain ⟨b', hb', -⟩ := hso.bank h hb
    exact ⟨b', hb', .withLayout rfl fun fs _ => .respond (.answered (hso.setBank h rfl) _ _)⟩
  | writeField c id => exact writeField_masked_sim hinv hso c id
  | readField c id | extract c id =>
    refine .bankChecks rfl rfl he fun hu => .requireField rfl he fun j hj => .withSlot fun b hb => ?_
    obtain ⟨ds, h⟩ := holds_of_inv hinv hu.valid
    obtain ⟨b', hb', hslot⟩ := hso.slot h hj.lt hb
    refine ⟨b', hb', fun v hv => ?_⟩
    obtain ⟨v', hv', heq⟩ := hslot v hv
    refine ⟨v', hv', .withFieldLayout rfl fun fs f hfs hf => .respond ?_⟩
    simp only [project, heq fs f hfs hf]
    exact hok _
  | serialize c =>
    refine .bankChecks rfl rfl he fun hu => .withBank fun b hb => ?_
    obtain ⟨ds, h⟩ := holds_of_inv hinv hu.valid
    obtain ⟨b', hb', -, heq⟩ := hso.bank h hb
    refine ⟨b', hb', .withLayout rfl fun fs hfs => .respond ?_⟩
    obtain rfl := Option.some.inj (h.fields.symm.trans hfs)
    rw [← packWord_observedBank _ b', heq, packWord_observedBank]
    exact hok _
  | queryShift id | queryMask id =>
    exact .requireState rfl he fun _ => .requireField rfl he fun j _ => .withFieldLayout rfl fun _ _ _ _ =>
      .respond (hok _)
  | queryLayout => exact .queryLayout rfl rfl he fun l => hok _
  | reservedOpE cmd | reservedOpF cmd => exact .raise (he _)

/-! ### Cycles and runs side by side -/

/-- A cycle of this block beside the same cycle of the block that masks. -/
theorem Cycles.masked (hc : Cycles s u) (hinv : s.Inv) (hso : SameObserved s t) :
    ∃ t', portStep execMasked t = .next t' ∧ SameObserved u t' := by
  obtain ⟨slot', rfl⟩ : ∃ x, t = { s with slot := x } := ⟨_, hso.1⟩
  have ⟨_, hobs⟩ := hso
  cases hc with
  | idle hh => exact ⟨_, portStep_idle _ hh, hso⟩
  | reset k rest hh hr => exact ⟨_, portStep_rst _ hh hr, sameObserved_refl _⟩
  | take k rest r hh hr hs ht => exact ⟨_, portStep_take _ hh hr hs ht, rfl, hobs⟩
  | wait k rest r hh hr hs ht => exact ⟨_, portStep_wait _ hh hr hs ht, rfl, hobs⟩
  | noOffer k rest hh hr hs hc => exact ⟨_, portStep_nothing _ hh hr hs hc, rfl, hobs⟩
  | run k rest i u hh hr hs hc hd he =>
    have hin : SameObserved { s with host := rest, dataIn := k.dataIn }
        { s with slot := slot', host := rest, dataIn := k.dataIn } := ⟨rfl, hobs⟩
    obtain ⟨t', ht', hso'⟩ := masked_sim (s := { s with host := rest, dataIn := k.dataIn }) hinv hin i u he
    have haccept := portStep_accept (s := { s with slot := slot' }) execMasked hh hr hs hc
    exact ⟨t', haccept.trans ((acceptCommand_of_ok hd _).trans ht'), hso'⟩
  | illegal k rest e hh hr hs hc hd =>
    have haccept := portStep_accept (s := { s with slot := slot' }) execMasked hh hr hs hc
    exact ⟨_, haccept.trans (acceptCommand_of_error hd _), rfl, hobs⟩

/-- The two blocks run side by side from states that differ in no observed value. -/
theorem run_masked (n : Nat) (hinv : s.Inv) (hso : SameObserved s t) :
    ∃ s' t' : State, Sys2Proof.core.run n s = .next s' ∧ maskedCore.run n t = .next t' ∧ SameObserved s' t' := by
  induction n generalizing s t with
  | zero => exact ⟨s, t, rfl, rfl, hso⟩
  | succ n ih =>
    obtain ⟨s₁, hs⟩ := step_completes hinv
    have hc := step_cycles hs
    obtain ⟨t₁, ht, hso₁⟩ := hc.masked hinv hso
    obtain ⟨s', t', hs', ht', hso'⟩ := ih (hc.inv hinv) hso₁
    exact ⟨s', t', (run_succ Sys2Proof.core n hs).trans hs', (run_succ maskedCore n ht).trans ht', hso'⟩

/-- Settles O55: from one state the two blocks run side by side, and states that differ in slots alone have the same
responses. -/
theorem maskOnWriteGivesTheSameResponses : Obligations.MaskOnWriteGivesTheSameResponses := by
  intro n s hinv
  obtain ⟨s', t', hs, ht, hso⟩ := run_masked n hinv (sameObserved_refl s)
  refine ⟨s', t', hs, ht, ?_, ?_, hso⟩
  · rw [hso.1]
  · rw [hso.1]

end Sys2Proof.Machine
end

section
/-! PROOFS. The container commands and their laws (spec/41_container.md R78 to R91): a command of a usable bank works
on the bank's slots and the layout of a schema that fills the word, and every law is one of packing and unpacking. -/

namespace Sys2Proof.Machine

open Sys2Proof

variable {s t : State} {ds : List Descriptor} {d : Descriptor} {f : FieldLayout} {b b' : List Word} {v : Word} {i j : Nat}
  {c : BankSel}

/-! ### A bank in use -/

/-- A block in VALID that holds the schema `ds`, and the slots `b` in its bank `c`. -/
structure State.HoldsBank (s : State) (c : BankSel) (ds : List Descriptor) (b : List Word) : Prop where
  holds : s.Holds ds
  valid : s.cstate = .valid
  lt : c.toNat < s.cfg.nCont
  slots : s.slot[c.toNat]? = some b

theorem holdsBank_of_usable (h : s.Usable c) : ∃ ds b, s.HoldsBank c ds b := by
  obtain ⟨hinv, hv, hc⟩ := h
  obtain ⟨ds, hds⟩ := holds_of_inv hinv hv
  obtain ⟨b, hb, -⟩ := hds.exists_bank hc
  exact ⟨ds, b, hds, hv, hc, hb⟩

theorem State.Holds.fieldAt_iff (h : s.Holds ds) : s.FieldAt i d ↔ ds[i]? = some d := by
  rw [State.FieldAt, h.schema, Option.bind_some]

/-- A field's layout entry is as wide as its descriptor says, and ends inside the word. -/
theorem State.Holds.is_descriptor (h : s.Holds ds) (hd : s.FieldAt i d) (hf : s.LayoutAt i f) :
    f.Is f.shift.toNat d.width.toNat ∧ f.shift.toNat + d.width.toNat ≤ s.wsel.bits := by
  obtain ⟨⟨hsh, hmask, hw⟩, hle⟩ := h.is hf
  rw [h.widthAt_descriptor hd] at hmask hw hle
  exact ⟨⟨rfl, hmask, hw⟩, hsh ▸ hle⟩

namespace State.HoldsBank

theorem length (h : s.HoldsBank c ds b) : b.length = s.fcount.toNat := (h.holds.bank b (List.mem_of_getElem? h.slots)).1

theorem fits (h : s.HoldsBank c ds b) : ∀ v ∈ b, trunc s.wsel.bits v = v :=
  (h.holds.bank b (List.mem_of_getElem? h.slots)).2

theorem rawSlot (h : s.HoldsBank c ds b) (i : Nat) : s.rawSlot c.toNat i = b[i]? := by
  rw [State.rawSlot, h.slots, Option.bind_some]

/-- A field in use has its layout entry and its slot. -/
theorem exists_layout_slot (h : s.HoldsBank c ds b) (hd : s.FieldAt i d) :
    ∃ f v, s.LayoutAt i f ∧ s.rawSlot c.toNat i = some v := by
  obtain ⟨f, hf⟩ := h.holds.exists_layout (h.holds.descriptor_lt hd)
  obtain ⟨v, hv⟩ := rawSlot_exists h.holds h.lt (h.holds.descriptor_lt hd)
  exact ⟨f, v, hf, hv⟩

/-- The bank written, with a slot a field and at most `W` bits a slot, and the command answered. -/
theorem setBank (h : s.HoldsBank c ds b) (hl : b'.length = s.fcount.toNat) (hw : ∀ v ∈ b', trunc s.wsel.bits v = v) :
    ((Machine.setBank c b' s).answered .ok 0).HoldsBank c ds b' :=
  ⟨holds_answered (holds_setBank h.holds hl hw) _ _, h.valid, h.lt, List.getElem?_set_self (bank_lt h.holds h.lt)⟩

/-- WRITE_FIELD leaves the bank with its data operand in one slot. -/
theorem writeField (h : s.HoldsBank c ds b) (i : Nat) :
    ((Machine.setBank c (b.set i s.dataOperand) s).answered .ok 0).HoldsBank c ds (b.set i s.dataOperand) := by
  refine h.setBank (by rw [List.length_set, h.length]) fun v hv => ?_
  rcases List.mem_or_eq_of_mem_set hv with hm | rfl
  · exact h.fits v hm
  · exact trunc_trunc _ _

/-- Every other slot stays. -/
theorem rawSlot_writeField_ne (h : s.HoldsBank c ds b) (v : Word) {k : Nat} (hk : ¬ (k = c.toNat ∧ j = i)) :
    (Machine.setBank c (b.set i v) s).rawSlot k j = s.rawSlot k j := by
  by_cases hc : k = c.toNat
  · subst hc
    rw [rawSlot_setBank_self h.holds h.lt, List.getElem?_set_ne (fun hij => hk ⟨rfl, hij.symm⟩), h.rawSlot]
  · exact rawSlot_setBank_ne hc

end State.HoldsBank

theorem setBank_slot_ne (b : List Word) {k : Nat} (hk : k ≠ c.toNat) : (setBank c b s).slot[k]? = s.slot[k]? :=
  List.getElem?_set_ne (Ne.symm hk)

theorem dataOperand_toNat (s : State) : s.dataOperand.toNat = s.dataIn.toNat % 2 ^ s.wsel.bits :=
  trunc_toNat (bits_le s.wsel) _

/-! ### The commands -/

/-- Settles O29: the bank written is one of zeros. -/
theorem clearMakesTheBankEmpty : Obligations.ClearMakesTheBankEmpty := by
  intro c s hu
  obtain ⟨ds, b, h⟩ := holdsBank_of_usable hu
  refine ⟨_, execClear_eq h.holds h.valid h.lt, fun i hi => ?_, fun k hk => setBank_slot_ne _ hk, rfl⟩
  exact (rawSlot_setBank_self h.holds h.lt).trans (List.getElem?_replicate_of_lt hi)

/-- Settles O30: the bank written is what the transformed word unpacks into, one field a slot. -/
theorem unpackTakesEveryField : Obligations.UnpackTakesEveryField := by
  intro c s hu
  obtain ⟨ds, b, h⟩ := holdsBank_of_usable hu
  refine ⟨_, execUnpack_eq h.holds h.valid h.lt, fun i d f hd hf => ?_, fun k hk => setBank_slot_ne _ hk, rfl⟩
  obtain ⟨his, hle⟩ := h.holds.is_descriptor hd hf
  refine ⟨_, (rawSlot_setBank_self h.holds h.lt).trans ?_, takeField_toNat his (hle.trans (bits_le s.wsel)) _⟩
  rw [unpackWord, List.getElem?_map, h.holds.layoutEntry hf, Option.map_some]
  rfl

/-- Settles O31: the bank written is the bank with the data operand in one slot. -/
theorem writeFieldStoresVerbatim : Obligations.WriteFieldStoresVerbatim := by
  intro c s i d hu hd
  obtain ⟨ds, b, h⟩ := holdsBank_of_usable hu
  have hi : i < b.length := h.length ▸ h.holds.descriptor_lt hd
  refine ⟨_, execWriteField_eq h.holds h.valid h.lt hd h.slots, ⟨s.dataOperand, ?_, dataOperand_toNat s⟩,
    fun k j hk => h.rawSlot_writeField_ne _ hk, rfl⟩
  exact ((h.writeField i).rawSlot i).trans (List.getElem?_set_self hi)

/-- Settles O32: the mask is as many ones as the field is wide. -/
theorem readFieldReturnsTheObservedValue : Obligations.ReadFieldReturnsTheObservedValue := by
  intro c s i d v hu hd hv
  obtain ⟨ds, b, h⟩ := holdsBank_of_usable hu
  obtain ⟨f, -, hf, -⟩ := h.exists_layout_slot hd
  obtain ⟨his, -⟩ := h.holds.is_descriptor hd hf
  refine ⟨_, execReadField_eq h.holds h.valid h.lt hd hf hv, ?_⟩
  rw [observed_eq_trunc his, trunc_toNat his.2.2]

/-- Settles O33: the projection loses no bit, since the field ends inside the word. -/
theorem extractProjectsOneField : Obligations.ExtractProjectsOneField := by
  intro c s i d f v hu hd hf hv
  obtain ⟨ds, b, h⟩ := holdsBank_of_usable hu
  obtain ⟨his, hle⟩ := h.holds.is_descriptor hd hf
  have h64 := bits_le s.wsel
  exact ⟨_, execExtract_eq h.holds h.valid h.lt hd hf hv, project_toNat his (hle.trans h64) v,
    (trunc_eq_self_iff_lt h64).mp (project_width his hle h64 v)⟩

/-- Settles O34: each field of the packed word is the field's observed value. -/
theorem serializePacksEveryField : Obligations.SerializePacksEveryField := by
  intro c s hu
  obtain ⟨ds, b, h⟩ := holdsBank_of_usable hu
  have h64 := bits_le s.wsel
  refine ⟨_, execSerialize_eq h.holds h.valid h.lt h.slots,
    (trunc_eq_self_iff_lt h64).mp (packWord_width h.holds.fills s.fo b), fun i d f v hd hf hv => ?_⟩
  obtain ⟨his, hle⟩ := h.holds.is_descriptor hd hf
  have htake := takeField_packWord h.holds.fills s.fo (h.holds.layoutEntry hf) ((h.rawSlot i).symm.trans hv)
  rw [← takeField_toNat his (hle.trans h64), htake, observed_eq_trunc his, trunc_toNat his.2.2]

/-! ### SERIALIZE, EXTRACT and UNPACK -/

theorem transform_orAll (bo : ByteOrder) (w : StorageWidth) (ws : List Word) :
    transform bo w (orAll ws) = orAll (ws.map (transform bo w)) := by
  induction ws with
  | nil => exact transform_zero bo w
  | cons a ws ih => rw [orAll_cons, transform_or, ih, List.map_cons, orAll_cons]

/-- Settles O49: the packed word is the OR of the projections, and `T` commutes with OR. -/
theorem serializeIsTheOrOfExtracts : Obligations.SerializeIsTheOrOfExtracts := by
  intro c s hu
  obtain ⟨ds, b, h⟩ := holdsBank_of_usable hu
  refine ⟨(List.zipWith project (fieldLayoutsOf s.fo (widths ds)) b).map (transform s.bo s.wsel), ?_,
    fun i d hd => ?_, ?_⟩
  · rw [List.length_map, List.length_zipWith, fieldLayoutsOf_length, widths_length, h.holds.length, h.length, min_self]
  · obtain ⟨f, v, hf, hv⟩ := h.exists_layout_slot hd
    refine ⟨_, ?_, execExtract_eq h.holds h.valid h.lt hd hf hv⟩
    rw [List.getElem?_map, List.getElem?_zipWith, h.holds.layoutEntry hf, ← h.rawSlot, hv]
    rfl
  · rw [← transform_orAll]
    exact execSerialize_eq h.holds h.valid h.lt h.slots

/-- Blocks that hold one layout have its entries alike. -/
theorem fieldLayoutsOf_eq_of_layout_eq {ds' : List Descriptor} (hs : s.Holds ds) (ht : t.Holds ds')
    (hl : t.layout = s.layout) :
    fieldLayoutsOf t.fo (widths ds') = fieldLayoutsOf s.fo (widths ds) := by
  rw [ht.layout, hs.layout] at hl
  exact congrArg Layout.fields (Option.some.inj hl)

/-- Settles O50: `T` undoes itself on the packed word, whose fields are the observed values. -/
theorem unpackOfSerializeIsTheMaskedValues : Obligations.UnpackOfSerializeIsTheMaskedValues := by
  intro c c' s t u w hs hser hrsp hu hlayout _ hwsel hbo hdata
  obtain ⟨ds, b, h⟩ := holdsBank_of_usable hs
  obtain ⟨ds', b', h'⟩ := holdsBank_of_usable hu
  rw [execSerialize_eq h.holds h.valid h.lt h.slots, next_inj] at hser
  subst hser
  obtain rfl : transform s.bo s.wsel (packWord (fieldLayoutsOf s.fo (widths ds)) b) = w :=
    congrArg Response.dataOut (Option.some.inj hrsp)
  have hfit := packWord_width h.holds.fills s.fo b
  have hword : transform u.bo u.wsel u.dataOperand = packWord (fieldLayoutsOf s.fo (widths ds)) b := by
    rw [State.dataOperand, hwsel, hbo, hdata, transform_width _ _ hfit]
    exact transformIsAnInvolution _ _ _ hfit
  refine ⟨_, execUnpack_eq h'.holds h'.valid h'.lt, fun i v f hv hf => (rawSlot_setBank_self h'.holds h'.lt).trans ?_⟩
  have hentry := h.holds.layoutEntry hf
  rw [hword, fieldLayoutsOf_eq_of_layout_eq h.holds h'.holds hlayout, unpackWord, List.getElem?_map, hentry,
    Option.map_some, takeField_packWord h.holds.fills s.fo hentry ((h.rawSlot i).symm.trans hv)]
  rfl

/-- Settles O51: packing what a word unpacks into gives the word, and `T` undoes itself. -/
theorem serializeOfUnpackIsTheWord : Obligations.SerializeOfUnpackIsTheWord := by
  intro c s hu
  obtain ⟨ds, b, h⟩ := holdsBank_of_usable hu
  have hfit : trunc s.wsel.bits s.dataOperand = s.dataOperand := trunc_trunc _ _
  obtain ⟨hl, hw⟩ := unpackWord_fits h.holds h.holds.fields (transform s.bo s.wsel s.dataOperand)
  have ht := h.setBank hl hw
  refine ⟨_, execUnpack_eq h.holds h.valid h.lt, (execSerialize_eq ht.holds ht.valid ht.lt ht.slots).trans ?_⟩
  simp only [answered_fo, answered_bo, answered_wsel, setBank_fo, setBank_bo, setBank_wsel]
  rw [packWord_unpackWord h.holds.fills s.fo (transform_width _ _ hfit), transformIsAnInvolution _ _ _ hfit]
  rfl

/-! ### What a write leaves -/

/-- The two words have the same bits outside the mask. -/
def AgreeOutside (m a b : Word) : Prop := ∀ k, m.getLsbD k = false → a.getLsbD k = b.getLsbD k

theorem xor_and_not_eq_zero {m a b : Word} (h : AgreeOutside m a b) : (a ^^^ b) &&& ~~~ m = 0 := by
  apply BitVec.eq_of_getLsbD_eq
  intro k hk
  rw [BitVec.getLsbD_and, BitVec.getLsbD_xor, BitVec.getLsbD_not]
  cases hm : m.getLsbD k with
  | true => simp
  | false => simp [h k hm]

/-- `T` moves the mask's bits as it moves the words'. -/
theorem AgreeOutside.transform {m a b : Word} (h : AgreeOutside m a b) (bo : ByteOrder) (w : StorageWidth) :
    AgreeOutside (transform bo w m) (Machine.transform bo w a) (Machine.transform bo w b) := by
  cases bo with
  | big => exact h
  | little =>
    intro k hk
    simp only [Machine.transform, getLsbD_reverseBytes (bytes_le w).1] at hk ⊢
    by_cases hin : k < 8 * (w.bits / 8)
    · rw [decide_eq_true hin, Bool.true_and] at hk ⊢
      rw [h _ hk, Bool.true_and]
    · simp [hin]

/-- A field's projection lies in the field's mask. -/
theorem getLsbD_wordMask_of_project {k : Nat} (h : (project f v).getLsbD k = true) : (wordMask f).getLsbD k = true := by
  simp only [project, observed, BitVec.getLsbD_shiftLeft, BitVec.getLsbD_and, Bool.and_eq_true] at h
  obtain ⟨hin, -, hm⟩ := h
  rw [wordMask, BitVec.getLsbD_shiftLeft, hm, Bool.and_true, Bool.and_eq_true]
  exact hin

/-- Packing a bank with another value in one slot changes no bit outside that field (R88). -/
theorem packWord_set_agree {fs : List FieldLayout} (hf : fs[i]? = some f) (b : List Word) (v : Word) :
    AgreeOutside (wordMask f) (packWord fs b) (packWord fs (b.set i v)) := by
  intro k hk
  rw [Bool.eq_iff_iff, getLsbD_packWord, getLsbD_packWord]
  refine exists_congr fun j => exists_congr fun g => exists_congr fun u => and_congr_right fun hg =>
    and_congr_left fun hbit => ?_
  by_cases hij : i = j
  · subst hij
    obtain rfl := Option.some.inj (hf.symm.trans hg)
    simp [getLsbD_wordMask_of_project hbit] at hk
  · rw [List.getElem?_set_ne hij]

/-- Settles O52: the write leaves every other slot, so what is read of it, and the packed word outside the field. -/
theorem writesDoNotInterfere : Obligations.WritesDoNotInterfere := by
  intro c s t i d f hu hd hf hwrite
  obtain ⟨ds, b, h⟩ := holdsBank_of_usable hu
  rw [execWriteField_eq h.holds h.valid h.lt hd h.slots, next_inj] at hwrite
  subst hwrite
  have ht := h.writeField i
  refine ⟨fun c' j e hc' he hne => ?_, _, _, execSerialize_eq h.holds h.valid h.lt h.slots,
    execSerialize_eq ht.holds ht.valid ht.lt ht.slots, ?_⟩
  · obtain ⟨-, -, hlt⟩ := hc'
    obtain ⟨g, hg⟩ := h.holds.exists_layout (h.holds.descriptor_lt he)
    obtain ⟨v, hv⟩ := rawSlot_exists h.holds hlt (h.holds.descriptor_lt he)
    have hother : ¬ (c'.toNat = c.toNat ∧ j = i) := fun ⟨hk, hj⟩ => hne ⟨BitVec.eq_of_toNat_eq hk, hj⟩
    have hv' := (h.rawSlot_writeField_ne s.dataOperand hother).trans hv
    exact ⟨⟨_, execReadField_eq h.holds h.valid hlt he hg hv, execReadField_eq ht.holds ht.valid hlt he hg hv'⟩,
      _, execExtract_eq h.holds h.valid hlt he hg hv, execExtract_eq ht.holds ht.valid hlt he hg hv'⟩
  · exact xor_and_not_eq_zero ((packWord_set_agree (h.holds.layoutEntry hf) b _).transform _ _)

/-- Settles O53: the slot written is read through the mask of a field no wider than the word. -/
theorem readAfterWriteTruncates : Obligations.ReadAfterWriteTruncates := by
  intro c s i d hu hd
  obtain ⟨ds, b, h⟩ := holdsBank_of_usable hu
  obtain ⟨f, -, hf, -⟩ := h.exists_layout_slot hd
  obtain ⟨his, hle⟩ := h.holds.is_descriptor hd hf
  have ht := h.writeField i
  have hi : i < b.length := h.length ▸ h.holds.descriptor_lt hd
  have hv := (ht.rawSlot i).trans (List.getElem?_set_self hi)
  refine ⟨_, _, execWriteField_eq h.holds h.valid h.lt hd h.slots,
    execReadField_eq ht.holds ht.valid ht.lt hd hf hv, ?_⟩
  have hwidth : d.width.toNat ≤ s.wsel.bits := by omega
  rw [observed_eq_trunc his, trunc_toNat his.2.2, dataOperand_toNat, Nat.mod_mod_of_dvd _ (Nat.pow_dvd_pow 2 hwidth)]

/-! ### Schema S1 -/

/-- WRITE_FIELD with `x` on DATA_IN, in terms that the next command can go on from. -/
theorem State.HoldsBank.exec_writeField (h : s.HoldsBank c ds b) (hd : ds[i]? = some d) (x : Word) :
    ∃ t, exec (.writeField c d.id) { s with dataIn := x } = .next t ∧
      t.HoldsBank c ds (b.set i (trunc s.wsel.bits x)) ∧ t.wsel = s.wsel ∧ t.bo = s.bo ∧ t.fo = s.fo := by
  have hx : ({ s with dataIn := x } : State).HoldsBank c ds b := ⟨holds_dataIn h.holds x, h.valid, h.lt, h.slots⟩
  have hfield := hx.holds.fieldAt_iff.mpr hd
  exact ⟨_, execWriteField_eq hx.holds hx.valid hx.lt hfield hx.slots, hx.writeField i, rfl, rfl, rfl⟩

/-- Settles O54: three writes one after another, and the layout of S1 packs them. -/
theorem firstDeclaredFieldIsOnTop : Obligations.FirstDeclaredFieldIsOnTop := by
  intro c s x y z husable hw hbo hfo hds
  obtain ⟨ds, b, h⟩ := holdsBank_of_usable husable
  obtain rfl := Option.some.inj (h.holds.schema.symm.trans hds)
  have hentry : ∀ i f, s.LayoutAt i f → (fieldLayoutsOf .msbFirst [3, 2, 3])[i]? = some f := fun i f hf =>
    hfo ▸ h.holds.layoutEntry hf
  obtain ⟨p, q, r, rfl⟩ := List.length_eq_three.mp (h.length.trans h.holds.length.symm)
  obtain ⟨t, hxt, ht, hwt, hbt, hft⟩ := h.exec_writeField (i := 0) rfl 0b101
  obtain ⟨u, hyu, hu, hwu, hbu, hfu⟩ := ht.exec_writeField (i := 1) rfl 0b11
  obtain ⟨v, hzv, hv, hwv, hbv, hfv⟩ := hu.exec_writeField (i := 2) rfl 0b010
  refine ⟨fun f hf => ?_, fun f hf => ?_, t, u, v, hxt, hyu, hzv, ?_⟩
  · obtain rfl := Option.some.inj (hentry 0 f hf)
    decide
  · obtain rfl := Option.some.inj (hentry 2 f hf)
    decide
  · rw [execSerialize_eq hv.holds hv.valid hv.lt hv.slots, hwv, hbv, hfv, hwu, hbu, hfu, hwt, hbt, hft, hw, hbo, hfo]
    have hpack : packWord (fieldLayoutsOf .msbFirst [3, 2, 3]) [trunc 8 0b101, trunc 8 0b11, trunc 8 0b010] =
        0b10111010 := by decide
    exact congrArg (fun a => Host.Outcome.next (v.answered .ok a)) hpack

end Sys2Proof.Machine
end

section
/-! PROOFS. NOP and the layout queries (spec/42_query.md R93 to R96): a query in VALID passes its checks and answers
from the layout the block holds. -/

namespace Sys2Proof.Machine

open Sys2Proof

variable {s : State} {ds : List Descriptor} {d : Descriptor} {f : FieldLayout} {i : Nat}

/-! ### The checks of a query -/

/-- A query of a field in use passes its checks and goes on with the field's layout entry. -/
theorem fieldQuery_eq (h : s.Holds ds) (hv : s.cstate = .valid) (hd : s.FieldAt i d) (hf : s.LayoutAt i f)
    (body : FieldLayout → Result) :
    (requireState inStateToUse s <| requireField d.id s fun j => withFieldLayout j s body) = body f := by
  rw [requireState_of_allowed (inStateToUse_of_valid hv)]
  simp only [requireField, withFieldLayout, withLayout, h.schema, h.fieldIndex hd, h.fields, h.layoutEntry hf]

theorem execQueryShift_eq (h : s.Holds ds) (hv : s.cstate = .valid) (hd : s.FieldAt i d) (hf : s.LayoutAt i f) :
    exec (.queryShift d.id) s = .next (s.answered .ok (f.shift.setWidth 64)) :=
  fieldQuery_eq h hv hd hf fun f => respond .ok (f.shift.setWidth 64) s

theorem execQueryMask_eq (h : s.Holds ds) (hv : s.cstate = .valid) (hd : s.FieldAt i d) (hf : s.LayoutAt i f) :
    exec (.queryMask d.id) s = .next (s.answered .ok f.mask) :=
  fieldQuery_eq h hv hd hf fun f => respond .ok f.mask s

theorem execQueryLayout_eq (h : s.Holds ds) (hv : s.cstate = .valid) :
    exec .queryLayout s = .next (s.answered .ok (layoutWord (layoutOf s.fo ds).occ s)) := by
  rw [exec, execQueryLayout, requireState_of_allowed (inStateToUse_of_valid hv)]
  simp only [h.layout, respond_eq]

/-! ### The layout summary -/

/-- The summary word shows each of its fields at its bits, and 0 above them: elsewhere a field shows nothing. -/
theorem layoutWord_fields (occ : BitVec 7) (s : State) :
    (layoutWord occ s).extractLsb' 0 7 = occ ∧ (layoutWord occ s).extractLsb' 7 7 = s.fcount ∧
    (layoutWord occ s).extractLsb' 14 2 = s.wsel.toWsel ∧ (layoutWord occ s).extractLsb' 16 1 = s.bo.toBit ∧
    (layoutWord occ s).extractLsb' 17 1 = s.fo.toBit ∧ (layoutWord occ s).extractLsb' 18 46 = 0 := by
  refine ⟨?_, ?_, ?_, ?_, ?_, ?_⟩
  all_goals
    simp [layoutWord, BitVec.extractLsb'_or, extractLsb'_bitsAt_same, extractLsb'_bitsAt_apart]

/-! ### The statements -/

/-- Settles O36: the check of NOP passes in every state. -/
theorem nopOnlyAnswers : Obligations.NopOnlyAnswers := fun s =>
  requireState_of_allowed (s := s) (allowed := inAnyState) rfl (respond .ok 0 s)

/-- Settles O37: a shift keeps its value in 64 bits, and the mask is as many ones as the descriptor says. -/
theorem queriesReturnShiftAndMask : Obligations.QueriesReturnShiftAndMask := by
  intro s i d f hinv hv hd hf
  obtain ⟨ds, h⟩ := holds_of_inv hinv hv
  obtain ⟨his, -⟩ := h.is_descriptor hd hf
  exact ⟨⟨_, execQueryShift_eq h hv hd hf, BitVec.toNat_setWidth_of_le (by decide)⟩,
    _, execQueryMask_eq h hv hd hf, mask_toNat his⟩

/-- Settles O38: OCC is the word's width, since the fields fill the word. -/
theorem queryLayoutReturnsTheSummary : Obligations.QueryLayoutReturnsTheSummary := by
  intro s hinv hv
  obtain ⟨ds, h⟩ := holds_of_inv hinv hv
  obtain ⟨hocc, hrest⟩ := layoutWord_fields (layoutOf s.fo ds).occ s
  exact ⟨_, execQueryLayout_eq h hv, by rw [hocc, layoutOf_occ_toNat h.fills s.fo], hrest⟩

end Sys2Proof.Machine
end

section
/-! PROOFS. The checks and their codes (spec/60_exceptions.md R99 to R103): the code of a response is a function of the
command, the configuration and the schema, the first failing check of R100; every command answers with it. -/

namespace Sys2Proof.Machine

open Sys2Proof

variable {s t : State} {i : Instr} {k : RspCode} {c : BankSel} {id : Ident}

/-! ### The code a command gets -/

/-- The schema in use has no field of that identifier (R73). -/
def State.lacks (s : State) (id : Ident) : Bool := s.schema?.any fun ds => (fieldIndex ds id).isNone

/-- Check 2, before a check that gives `k`. -/
def stateCode (allowed : List CState) (s : State) (k : RspCode) : RspCode := if s.cstate ∈ allowed then k else .errState

/-- Check 3 of a command that names a bank, before a check that gives `k`. -/
def bankCode (bank : Option BankSel) (s : State) (k : RspCode) : RspCode :=
  match bank with
  | none => k
  | some c => if c.toNat < s.cfg.nCont then k else .errCsel

/-- Check 4 of a command that looks an identifier up, before a check that gives `k`. -/
def fieldCode (lookup : Option Ident) (s : State) (k : RspCode) : RspCode :=
  match lookup with
  | none => k
  | some id => if s.lacks id then .errNoField else k

/-- Check 5, the command's own: a commit can fail, and no other command. -/
def ownCode (i : Instr) (s : State) : RspCode :=
  match i with
  | .cfgCommit => if s.schema?.any fun ds => !passes s.eCount (validate ds s.wsel) then .errSchema else .ok
  | _ => .ok

/-- The code of the first check that fails, in the order of R100; OK when none does. -/
def responseCode (i : Instr) (s : State) : RspCode :=
  if isReserved i then .errIllegal
  else stateCode (allowedStates i) s <| bankCode (bankOf i) s <| fieldCode (lookupOf i) s <| ownCode i s

/-- The same for a word at the port: decoding is check 1. -/
def commandCode (k : Command) (s : State) : RspCode :=
  match decode k.cmd with
  | .ok i => responseCode i s
  | .error _ => .errIllegal

theorem stateCode_of_allowed {l : List CState} (h : s.cstate ∈ l) : stateCode l s k = k := if_pos h

theorem stateCode_of_refused {l : List CState} (h : s.cstate ∉ l) : stateCode l s k = .errState := if_neg h

theorem bankCode_of_lt {bank : Option BankSel} (h : ∀ c, bank = some c → c.toNat < s.cfg.nCont) : bankCode bank s k = k := by
  cases bank with
  | none => rfl
  | some c => exact if_pos (h c rfl)

theorem bankCode_of_le {bank : Option BankSel} (hb : bank = some c) (hc : s.cfg.nCont ≤ c.toNat) :
    bankCode bank s k = .errCsel := by
  subst hb
  exact if_neg (by omega)

theorem fieldCode_of_named {lookup : Option Ident} (h : ∀ id, lookup = some id → s.lacks id = false) :
    fieldCode lookup s k = k := by
  cases lookup with
  | none => rfl
  | some id => exact if_neg (by simp [h id rfl])

theorem fieldCode_of_lacks {lookup : Option Ident} (hl : lookup = some id) (h : s.lacks id = true) :
    fieldCode lookup s k = .errNoField := by
  subst hl
  exact if_pos h

theorem ownCode_of_ne (h : i ≠ .cfgCommit) (s : State) : ownCode i s = .ok := by
  unfold ownCode
  split
  · exact absurd rfl h
  · rfl

theorem ownCode_cfgCommit {ds : List Descriptor} (hd : s.schema? = some ds) :
    ownCode .cfgCommit s = if passes s.eCount (validate ds s.wsel) then .ok else .errSchema := by
  simp only [ownCode, hd, Option.any_some]
  cases passes s.eCount (validate ds s.wsel) <;> rfl

theorem responseCode_of_not_reserved (h : isReserved i = false) (s : State) :
    responseCode i s = stateCode (allowedStates i) s (bankCode (bankOf i) s (fieldCode (lookupOf i) s (ownCode i s))) :=
  if_neg (by simp [h])

/-- A lookup fails exactly when no field of the schema has the identifier. -/
theorem lacks_eq_true {ds : List Descriptor} (hd : s.schema? = some ds) :
    s.lacks id = true ↔ ∀ (j : Nat) (d : Descriptor), s.FieldAt j d → d.id ≠ id := by
  simp only [State.lacks, State.FieldAt, hd, Option.any_some, Option.bind_some, Option.isNone_iff_eq_none,
    fieldIndex_eq_none, List.mem_iff_getElem?]
  exact ⟨fun h j d hj => h d ⟨j, hj⟩, fun h d ⟨j, hj⟩ => h j d hj⟩

theorem bankCode_cases (bank : Option BankSel) (s : State) (k : RspCode) :
    bankCode bank s k = k ∨ bankCode bank s k = .errCsel := by
  unfold bankCode
  split
  · exact .inl rfl
  · exact ite_eq_or_eq _ _ _

theorem fieldCode_cases (lookup : Option Ident) (s : State) (k : RspCode) :
    fieldCode lookup s k = k ∨ fieldCode lookup s k = .errNoField := by
  unfold fieldCode
  split
  · exact .inl rfl
  · exact (ite_eq_or_eq _ _ _).symm

theorem ownCode_cases (i : Instr) (s : State) : ownCode i s = .ok ∨ ownCode i s = .errSchema := by
  unfold ownCode
  split
  · exact (ite_eq_or_eq _ _ _).symm
  · exact .inl rfl

/-- A command of no reserved operation fails at one of the checks 2, 3 and 4, or gets its own code. -/
theorem responseCode_cases (hr : isReserved i = false) (s : State) :
    (s.cstate ∉ allowedStates i ∧ responseCode i s = .errState) ∨ responseCode i s = .errCsel ∨
      responseCode i s = .errNoField ∨ responseCode i s = ownCode i s := by
  rw [responseCode_of_not_reserved hr]
  by_cases hs : s.cstate ∈ allowedStates i
  · rw [stateCode_of_allowed hs]
    rcases bankCode_cases (bankOf i) s (fieldCode (lookupOf i) s (ownCode i s)) with hb | hb
    · rw [hb]
      exact .inr (.inr (fieldCode_cases _ _ _).symm)
    · exact .inr (.inl hb)
  · exact .inl ⟨hs, stateCode_of_refused hs⟩

/-- A command in a state it is allowed in never gets ERR_STATE. -/
theorem responseCode_ne_errState (hr : isReserved i = false) (hs : s.cstate ∈ allowedStates i) :
    responseCode i s ≠ .errState := by
  rcases responseCode_cases hr s with ⟨hn, -⟩ | h | h | h
  · exact absurd hs hn
  · simp [h]
  · simp [h]
  · rcases ownCode_cases i s with ho | ho
    · simp [h, ho]
    · simp [h, ho]

/-- ERR_SCHEMA is the code of a commit. -/
theorem eq_cfgCommit_of_errSchema (h : responseCode i s = .errSchema) : i = .cfgCommit := by
  by_contra hi
  cases hr : isReserved i with
  | true => simp [responseCode, hr] at h
  | false =>
    have hc := responseCode_cases hr s
    simp [h, ownCode_of_ne hi] at hc

/-- What names a bank is neither reserved nor a commit. -/
theorem responseCode_of_bank (hb : bankOf i = some c) (s : State) :
    responseCode i s = .ok ∨ responseCode i s = .errState ∨ responseCode i s = .errCsel ∨ responseCode i s = .errNoField := by
  have hr : isReserved i = false := by
    cases i with
    | reservedOpE cmd | reservedOpF cmd => cases hb
    | _ => rfl
  have hi : i ≠ .cfgCommit := by rintro rfl; cases hb
  rcases responseCode_cases hr s with ⟨-, h⟩ | h | h | h
  · exact .inr (.inl h)
  · exact .inr (.inr (.inl h))
  · exact .inr (.inr (.inr h))
  · exact .inl (h.trans (ownCode_of_ne hi s))

/-! ### A result with its code -/

/-- The command or its body answers `k`, where it answers at all; an error of a check is its only effect (R100, R101). -/
structure Gets (s : State) (k : RspCode) (x : Result) : Prop where
  code : ∀ t, x = .next t → ∃ d, t.rsp = some ⟨k, d⟩
  error : k ≠ .ok → k ≠ .errSchema → x = .next (s.erred k)

namespace Gets

variable {x : Result}

theorem next_error (hg : Gets s k x) (hx : x = .next t) (hok : k ≠ .ok) (hsch : k ≠ .errSchema) : t = s.erred k :=
  next_inj.mp ((hg.error hok hsch).symm.trans hx)

/-- A body whose every answer is OK. -/
theorem ok (h : ∀ t, x = .next t → ∃ d, t.rsp = some ⟨.ok, d⟩) : Gets s .ok x := ⟨h, fun hk => absurd rfl hk⟩

theorem fault (e : Fault) : Gets s .ok (.fault e) := ok fun _ ht => by cases ht

theorem respond (d : Word) (u : State) : Gets s .ok (Machine.respond .ok d u) :=
  ok fun _ ht => ⟨d, by rw [(respond_next _ _).mp ht, answered_rsp]⟩

theorem raise (e : RspCode) : Gets s e (Machine.raise e s) :=
  ⟨fun _ ht => ⟨0, by rw [(raise_next _).mp ht, erred_rsp]⟩, fun _ _ => raise_eq e s⟩

theorem requireState {allowed : CState → Bool} {l : List CState} (hl : allowed s.cstate = true ↔ s.cstate ∈ l)
    (hx : Gets s k x) : Gets s (stateCode l s k) (Machine.requireState allowed s x) := by
  simp only [stateCode, Machine.requireState, hl]
  split
  · exact hx
  · exact raise _

theorem requireBank (hx : Gets s k x) : Gets s (bankCode (some c) s k) (Machine.requireBank c s x) := by
  simp only [bankCode, Machine.requireBank]
  split
  · exact hx
  · exact raise _

theorem requireField {body : Nat → Result} (hb : ∀ j, Gets s .ok (body j)) :
    Gets s (fieldCode (some id) s .ok) (Machine.requireField id s body) := by
  unfold fieldCode State.lacks Machine.requireField
  cases s.schema? with
  | none => exact fault _
  | some ds =>
    cases hf : fieldIndex ds id with
    | none => simpa [hf] using raise .errNoField
    | some j => simpa [hf] using hb j

theorem withBank {body : List Word → Result} (hb : ∀ b, Gets s .ok (body b)) : Gets s .ok (Machine.withBank c s body) :=
  ok fun t ht => by
    obtain ⟨b, -, h⟩ := (withBank_next _ _).mp ht
    exact (hb b).code t h

theorem withSlot {j : Nat} {body : Word → Result} (hb : ∀ v, Gets s .ok (body v)) :
    Gets s .ok (Machine.withSlot c j s body) :=
  ok fun t ht => by
    obtain ⟨_, v, -, -, h⟩ := (withSlot_next _ _ _).mp ht
    exact (hb v).code t h

theorem withLayout {body : List FieldLayout → Result} (hb : ∀ fs, Gets s .ok (body fs)) :
    Gets s .ok (Machine.withLayout s body) :=
  ok fun t ht => by
    obtain ⟨fs, -, h⟩ := (withLayout_next _).mp ht
    exact (hb fs).code t h

theorem withFieldLayout {j : Nat} {body : FieldLayout → Result} (hb : ∀ f, Gets s .ok (body f)) :
    Gets s .ok (Machine.withFieldLayout j s body) :=
  ok fun t ht => by
    obtain ⟨_, f, -, -, h⟩ := (withFieldLayout_next _ _).mp ht
    exact (hb f).code t h

/-- The check of the commands that use a layout. -/
theorem inUse (hx : Gets s k x) : Gets s (stateCode [.valid] s k) (Machine.requireState inStateToUse s x) :=
  requireState (by simp) hx

/-- The check of the commands that load a schema. -/
theorem inLoad (hx : Gets s k x) : Gets s (stateCode [.config] s k) (Machine.requireState inStateToLoad s x) :=
  requireState (by simp) hx

/-- The check of the commands of every state. -/
theorem inAny (hx : Gets s k x) :
    Gets s (stateCode [.unconfigured, .config, .valid, .error] s k) (Machine.requireState inAnyState s x) :=
  requireState (by cases s.cstate <;> decide) hx

/-- The check of CFG_BEGIN. -/
theorem inBegin (hx : Gets s k x) :
    Gets s (stateCode [.unconfigured, .config, .error] s k) (Machine.requireState inStateToBegin s x) :=
  requireState (by cases s.cstate <;> decide) hx

/-- CFG_COMMIT. -/
theorem cfgCommit (s : State) : Gets s (stateCode [.config] s (ownCode .cfgCommit s)) (execCfgCommit s) := by
  refine inLoad ?_
  cases hd : s.schema? with
  | none =>
    rw [ownCode, hd]
    exact fault _
  | some ds =>
    rw [ownCode_cfgCommit hd]
    dsimp only
    split
    · exact respond _ _
    · exact ⟨fun t ht => ⟨0, by rw [(raise_next _).mp ht, erred_rsp]⟩, fun _ hk => absurd rfl hk⟩

end Gets

/-- Every command gets the code of its first failing check. -/
theorem exec_gets (i : Instr) (s : State) : Gets s (responseCode i s) (exec i s) := by
  cases i with
  | nop | readStatus => exact .inAny (.respond _ _)
  | cfgBegin w bo fo => exact .inBegin (.respond _ _)
  | cfgField id width => exact .inLoad (.respond _ _)
  | cfgCommit => exact .cfgCommit s
  | clear c => exact .inUse (.requireBank (.withBank fun _ => .respond _ _))
  | unpack c | serialize c => exact .inUse (.requireBank (.withBank fun _ => .withLayout fun _ => .respond _ _))
  | writeField c id => exact .inUse (.requireBank (.requireField fun _ => .withBank fun _ => .respond _ _))
  | readField c id | extract c id =>
    exact .inUse (.requireBank (.requireField fun _ => .withSlot fun _ => .withFieldLayout fun _ => .respond _ _))
  | queryShift id | queryMask id => exact .inUse (.requireField fun _ => .withFieldLayout fun _ => .respond _ _)
  | queryLayout =>
    refine .inUse ?_
    cases s.layout with
    | none => exact .fault _
    | some l => exact .respond _ _
  | reservedOpE cmd | reservedOpF cmd => exact .raise _

/-- So does every word at the port. -/
theorem acceptCommand_gets (k : Command) (s : State) :
    Gets { s with dataIn := k.dataIn } (commandCode k s) (acceptCommand exec k s) := by
  cases hd : decode k.cmd with
  | ok i =>
    rw [commandCode, hd, acceptCommand_of_ok hd]
    exact exec_gets i { s with dataIn := k.dataIn }
  | error e =>
    rw [commandCode, hd, acceptCommand_of_error hd]
    exact .raise _

/-! ### What an error leaves -/

/-- What a response leaves of the error record (R101). -/
theorem Answers.record {r : Response} (ha : Answers s t) (hr : t.rsp = some r) :
    (r.code ≠ .ok → t.lastErr = r.code ∧ t.fault = true ∧ r.dataOut = 0) ∧
      (r.code = .ok → t.lastErr = s.lastErr ∧ t.fault = s.fault) := by
  cases ha with
  | ok d =>
    obtain rfl := Option.some.inj hr
    exact ⟨fun hne => absurd rfl hne, fun _ => ⟨rfl, rfl⟩⟩
  | error e he =>
    obtain rfl := Option.some.inj hr
    exact ⟨fun _ => ⟨rfl, rfl, rfl⟩, fun h => absurd h he⟩

/-- A commit answered ERR_SCHEMA has rejected its schema (R67). -/
theorem cfgCommit_of_errSchema {d : Word} (he : exec .cfgCommit s = .next t) (hr : t.rsp = some ⟨.errSchema, d⟩) :
    ∃ ds, s.schema? = some ds ∧ t = (rejectSchema (validate ds s.wsel) s).erred .errSchema := by
  rcases execCfgCommit_cases he with ⟨-, ds, hd, ⟨-, rfl⟩ | ⟨-, ht⟩⟩ | ⟨e, -, hne, rfl⟩
  · simp at hr
  · exact ⟨ds, hd, ht⟩
  · simp [hne] at hr

/-! ### The statements -/

/-- Settles O40: the check of the state is the first after decoding, and no later check gives ERR_STATE. -/
theorem commandsOutsideTheirStates : Obligations.CommandsOutsideTheirStates := by
  intro i s hr
  have hg := exec_gets i s
  refine ⟨fun hs => ?_, fun hs t r ht hrsp => ?_⟩
  · have hk : responseCode i s = .errState := by rw [responseCode_of_not_reserved hr, stateCode_of_refused hs]
    rw [hk] at hg
    exact hg.error (by decide) (by decide)
  · obtain ⟨d, hd⟩ := hg.code t ht
    obtain rfl := Option.some.inj (hd.symm.trans hrsp)
    exact responseCode_ne_errState hr hs

/-- Settles O41: the code of the response is that of the first failing check, and each hypothesis passes one check on. -/
theorem firstFailingCheckAnswers : Obligations.FirstFailingCheckAnswers := by
  intro k s hinv
  have hg := acceptCommand_gets k s
  obtain ⟨t, ht⟩ := acceptCommand_completes hinv k
  obtain ⟨d, hrsp⟩ := hg.code t ht
  obtain ⟨-, ⟨-, hsome⟩, -⟩ := hinv
  obtain ⟨ds, hds⟩ := Option.isSome_iff_exists.mp hsome
  refine ⟨t, _, ht, hrsp, hg.next_error ht, ?_, fun i hd => ?_⟩
  · rintro ⟨e, hd⟩
    simp only [commandCode, hd]
  · simp only [commandCode, hd]
    refine ⟨fun hr => if_pos hr, fun hr => ?_⟩
    rw [responseCode_of_not_reserved hr]
    refine ⟨fun hs => stateCode_of_refused hs, fun hs => ?_⟩
    rw [stateCode_of_allowed hs]
    refine ⟨fun c hb hc => bankCode_of_le hb hc, fun hb => ?_⟩
    rw [bankCode_of_lt hb]
    refine ⟨fun id hl hn => fieldCode_of_lacks hl ((lacks_eq_true hds).mpr hn), fun hl => ?_⟩
    have hnamed : ∀ id, lookupOf i = some id → s.lacks id = false := by
      intro id hid
      obtain ⟨j, d, hj, hde⟩ := hl id hid
      exact Bool.eq_false_iff.mpr fun h => (lacks_eq_true hds).mp h j d hj hde
    rw [fieldCode_of_named hnamed]
    refine ⟨fun hi => ownCode_of_ne hi s, ?_⟩
    rintro rfl ds' hds'
    exact ownCode_cfgCommit hds'

/-- Settles O42: a response is OK or an error with its record, an error of a check is the only effect, and the one
other error is that of a commit that rejects its schema. -/
theorem errorResponsesHaveExactlyTheirEffects : Obligations.ErrorResponsesHaveExactlyTheirEffects := by
  intro k s t ht
  have hg := acceptCommand_gets k s
  obtain ⟨d, hrsp⟩ := hg.code t ht
  obtain ⟨u, hp, ha⟩ := acceptCommand_writes ht
  obtain ⟨herror, hok⟩ := ha.record hrsp
  rw [hp.lastErr, hp.fault] at hok
  refine ⟨_, hrsp, herror, hg.next_error ht, fun hk => ?_, hok, fun hf => ?_⟩
  · rcases acceptCommand_next.mp ht with ⟨i, hd, he⟩ | ⟨⟨e, hd⟩, -⟩
    · dsimp only at hk
      rw [hk] at hrsp
      rw [commandCode, hd] at hk
      obtain rfl := eq_cfgCommit_of_errSchema hk
      exact cfgCommit_of_errSchema he hrsp
    · simp [commandCode, hd] at hk
  · by_cases hk : commandCode k s = .ok
    · exact (hok hk).2.trans hf
    · obtain ⟨-, hfault, -⟩ := herror hk
      exact hfault

/-- Settles O43: no check looks at a slot or at DATA_IN, and a container command has no check of its own. -/
theorem dataPathHasNoErrors : Obligations.DataPathHasNoErrors := by
  intro i c s s' hb hinv hinv' hs
  obtain ⟨t, ht⟩ := exec_completes hinv i
  obtain ⟨t', ht'⟩ := exec_completes hinv' i
  obtain ⟨d, hd⟩ := (exec_gets i s).code t ht
  obtain ⟨d', hd'⟩ := (exec_gets i s').code t' ht'
  have hcode : responseCode i s = responseCode i s' := by rw [hs]; rfl
  exact ⟨t, t', _, _, ht, ht', hd, hd', hcode, responseCode_of_bank hb s⟩

end Sys2Proof.Machine
end

section
/-! PROOFS. Reset (spec/70_reset_and_hazards.md R110): every cycle without `rst` keeps what only reset takes back. -/

namespace Sys2Proof.Machine

open Sys2Proof

variable {s t u : State} {i : Instr}

/-- `t` still has what only reset takes back: VALID with its committed layout, FAULT, and the record of an error. -/
structure Keeps (s t : State) : Prop where
  committed : s.cstate = .valid → t.cstate = .valid ∧ t.layout = s.layout
  fault : s.fault = true → t.fault = true
  lastErr : s.lastErr ≠ .ok → t.lastErr ≠ .ok

theorem Answers.keeps (ha : Answers u t) : Keeps u t := by
  cases ha with
  | ok d => exact ⟨fun hv => ⟨hv, rfl⟩, id, id⟩
  | error e he => exact ⟨fun hv => ⟨hv, rfl⟩, fun _ => rfl, fun _ => he⟩

/-- No command leaves VALID or writes its layout, and no write touches the error record. -/
theorem exec_keeps (he : exec i s = .next t) : Keeps s t := by
  obtain ⟨-, -, hlocked⟩ := layoutIsWrittenOnce i s t he
  obtain ⟨u, hw, ha⟩ := exec_writes he
  obtain ⟨-, hfault, hlast⟩ := ha.keeps
  rw [hw.samePort.fault] at hfault
  rw [hw.samePort.lastErr] at hlast
  exact ⟨hlocked, hfault, hlast⟩

/-- Every cycle without `rst` keeps what only reset takes back. -/
theorem Cycles.keeps (hc : Cycles s t) (hr : ∀ h, s.host.head? = some h → h.rst = false) : Keeps s t := by
  cases hc with
  | reset c rest hh hrst => simp [hr c (by rw [hh]; rfl)] at hrst
  | run c rest i t _ _ _ _ _ he =>
    obtain ⟨hcommitted, hfault, hlast⟩ := exec_keeps he
    exact ⟨hcommitted, hfault, hlast⟩
  | illegal => exact ⟨fun hv => ⟨hv, rfl⟩, fun _ => rfl, fun _ => nofun⟩
  | idle | take | wait | noOffer => exact ⟨fun hv => ⟨hv, rfl⟩, id, id⟩

/-- The STATUS word of a block after reset (R26, R110). -/
theorem statusWord_resetFor (cfg : Config) (host : List HostCycle) : statusWord (.resetFor cfg host) = 0 := by
  have hsame : statusWord (.resetFor cfg host) = statusWord .reset := rfl
  rw [hsame]
  decide

/-- Settles O14: a cycle with `rst` leaves the state of `resetFor`, and every other cycle keeps VALID, the layout and
the error record. -/
theorem resetValuesAndOnlyReset : Obligations.ResetValuesAndOnlyReset := by
  refine ⟨fun s h rest hh hr => ⟨_, portStep_rst exec hh hr, ?_⟩, fun s t hstep hr => ?_⟩
  · exact ⟨rfl, rfl, rfl, rfl, rfl, rfl, rfl, rfl, rfl, rfl, rfl, fun j => Vector.getElem_replicate j.isLt, rfl,
      fun _ _ => rfl, rfl, rfl, statusWord_resetFor _ _⟩
  · obtain ⟨hcommitted, hfault, hlast⟩ := (step_cycles hstep).keeps hr
    exact ⟨hcommitted, hfault, hlast⟩

end Sys2Proof.Machine
end

section
/-! PROOFS. Runs (spec/70_reset_and_hazards.md R112, R116): a ready block serves the commands its host issues one after
another, each in an offer and a taking (R35, R36). -/

namespace Sys2Proof.Machine

open Sys2Proof

variable {s t u v : State} {i : Instr} {c : Command} {cs cs' : List Command} {rest : List HostCycle}

/-! ### Serving commands -/

/-- The host of `s` issues the commands `cs` next, and running them leaves `u` with the rest of the host's cycles. -/
structure Serves (cs : List Command) (s u : State) : Prop where
  host : s.host = hostOf cs ++ u.host
  run : Sys2Proof.core.run (2 * cs.length) s = .next u

theorem Serves.nil (s : State) : Serves [] s s := ⟨rfl, rfl⟩

theorem Serves.append (h : Serves cs s u) (h' : Serves cs' u v) : Serves (cs ++ cs') s v := by
  refine ⟨?_, ?_⟩
  · rw [h.host, h'.host, hostOf, hostOf, hostOf, List.flatMap_append, List.append_assoc]
  · rw [List.length_append, Nat.mul_add, run_add _ _ _ h.run, h'.run]

/-- A ready block answers the command it is offered, and the host takes the response. -/
theorem serves_one {r : Response} (hs : s.rsp = none) (hh : s.host = .offer c :: .take :: rest)
    (ht : acceptCommand exec c { s with host := .take :: rest } = .next t) (hr : t.rsp = some r) :
    Serves [c] s (takeResponse r { t with host := rest }) := by
  obtain ⟨u, hport, ha⟩ := acceptCommand_writes ht
  have hhost : t.host = .take :: rest := by rw [ha.frame]; exact hport.host
  have hoffer : step s = .next t := (portStep_accept exec hh rfl hs rfl).trans ht
  have htake : step t = .next (takeResponse r { t with host := rest }) := portStep_take exec hhost rfl hr rfl
  exact ⟨hh, (run_succ Sys2Proof.core 1 hoffer).trans (run_succ Sys2Proof.core 0 htake)⟩

/-! ### Any commands -/

/-- A ready block whose invariant holds serves every command, with one response. -/
theorem exists_serves_one (hinv : s.Inv) (hs : s.rsp = none) (hh : s.host = .offer c :: .take :: rest) :
    ∃ u r, Serves [c] s u ∧ u.Inv ∧ u.rsp = none ∧ u.host = rest ∧ u.taken = s.taken ++ [r] := by
  have hstep := portStep_accept exec hh rfl hs rfl
  obtain ⟨t, ht⟩ := acceptCommand_completes (s := { s with host := .take :: rest }) hinv c
  obtain ⟨w, hport, ha⟩ := acceptCommand_writes ht
  obtain ⟨r, -, hr⟩ := ha.one_response (hport.rsp.trans hs)
  have htinv : t.Inv := everyStepKeepsTheInvariant s t hinv (hstep.trans ht)
  have htaken : t.taken = s.taken := by rw [ha.frame]; exact hport.taken
  refine ⟨_, r, serves_one hs hh ht hr, takeResponse_inv (s := { t with host := rest }) hr htinv, rfl, rfl, ?_⟩
  rw [takeResponse_taken, htaken]

/-- It serves any number of commands, with one response each. -/
theorem exists_serves (hinv : s.Inv) (hs : s.rsp = none) (hh : s.host = hostOf cs) :
    ∃ u, Serves cs s u ∧ u.Inv ∧ u.Ended ∧ u.taken.length = s.taken.length + cs.length := by
  induction cs generalizing s with
  | nil => exact ⟨s, .nil s, hinv, ⟨hh, hs⟩, rfl⟩
  | cons c cs ih =>
    obtain ⟨u, r, hone, huinv, hu, huhost, hutaken⟩ := exists_serves_one hinv hs hh
    obtain ⟨v, hrest, hvinv, hv, hvtaken⟩ := ih huinv hu huhost
    refine ⟨v, hone.append hrest, hvinv, hv, ?_⟩
    rw [hvtaken, hutaken, List.length_append, List.length_singleton, List.length_cons]
    omega

/-- FAULT is the record of the errors among the responses taken (R25, R116). -/
theorem successful_iff (hinv : s.Inv) (hs : s.rsp = none) : s.Successful ↔ ∀ r ∈ s.taken, r.code = .ok := by
  obtain ⟨hfault, -, -⟩ := (inv_iff.mp hinv).2
  have hresponses : s.responses = s.taken := by rw [State.responses, hs, Option.toList_none, List.append_nil]
  rw [State.Successful, hfault, hresponses]
  simp [errorCodes]

/-- Settles O56: the block serves the commands one by one, and by the invariant FAULT tells whether one was an error. -/
theorem everyRunEndsWithItsResponses : Obligations.EveryRunEndsWithItsResponses := by
  intro cfg cs hcfg
  obtain ⟨s, hserves, hinv, ⟨hhost, hrsp⟩, htaken⟩ :=
    exists_serves (s := runStart cfg cs) (resetFor_inv cfg _ hcfg) rfl rfl
  exact ⟨s, hserves.run, ⟨hhost, hrsp⟩, hinv, htaken.trans (Nat.zero_add _), successful_iff hinv hrsp⟩

/-! ### The boot order -/

variable {cfg : Config} {w : StorageWidth} {bo : ByteOrder} {fo : FieldOrder} {ds ds' : List Descriptor}

/-- The block as it executes a command without data: the offer is over, and DATA_IN is sampled (R35). -/
abbrev State.offered (s : State) (rest : List HostCycle) : State := { s with host := .take :: rest, dataIn := 0 }

/-- A ready block serves a command that answers OK, and the host takes the response. -/
theorem serves_ok (hi : i.wellFormed = true) (hs : s.rsp = none) (hh : s.host = hostOf [⟨encode i, 0⟩] ++ rest)
    (he : exec i (s.offered rest) = .next (u.answered .ok 0)) :
    Serves [⟨encode i, 0⟩] s (takeResponse ⟨.ok, 0⟩ { u.answered .ok 0 with host := rest }) :=
  serves_one hs hh ((acceptCommand_of_ok (decodeOfEncodeIsTheCommand i hi) _).trans he) rfl

/-- `ds` is loaded so far, under the axes of CFG_BEGIN, and no command has failed. -/
def State.Loads (s : State) (cfg : Config) (w : StorageWidth) (bo : ByteOrder) (fo : FieldOrder)
    (ds : List Descriptor) : Prop :=
  s.cstate = .config ∧ s.schema? = some ds ∧ s.eCount = false ∧ s.fault = false ∧
    s.cfg = cfg ∧ s.wsel = w ∧ s.bo = bo ∧ s.fo = fo

theorem schema_of_fcount_eq_zero (h : s.fcount = 0) : s.schema? = some [] := schema_eq_some.mpr (by simp [h])

theorem execCfgBegin_eq (hv : s.cstate ≠ .valid) (w : StorageWidth) (bo : ByteOrder) (fo : FieldOrder) :
    exec (.cfgBegin w bo fo) s = .next (State.answered
      { clearSchemaFlags s with wsel := w, bo := bo, fo := fo, fcount := 0, cstate := .config } .ok 0) :=
  requireState_of_allowed ((inStateToBegin_iff _).mpr hv) _

/-- CFG_BEGIN outside VALID starts with the empty schema (R65). -/
theorem serves_cfgBegin (hv : s.cstate ≠ .valid) (hf : s.fault = false) (hs : s.rsp = none)
    (hh : s.host = hostOf [⟨encode (.cfgBegin w bo fo), 0⟩] ++ rest) :
    ∃ u, Serves [⟨encode (.cfgBegin w bo fo), 0⟩] s u ∧ u.Loads s.cfg w bo fo [] ∧ u.rsp = none ∧ u.host = rest := by
  have hexec := execCfgBegin_eq (s := s.offered rest) hv w bo fo
  exact ⟨_, serves_ok rfl hs hh hexec, ⟨rfl, schema_of_fcount_eq_zero rfl, rfl, hf, rfl, rfl, rfl, rfl⟩, rfl, rfl⟩

theorem State.Loads.append (hl : s.Loads cfg w bo fo ds) (hroom : ds.length < maxFields) (d : Descriptor) :
    (appendDescriptor d s).Loads cfg w bo fo (ds ++ [d]) := by
  obtain ⟨hc, hd, he, hrest⟩ := hl
  have hlt : s.fcount.toNat < maxFields := schema_length hd ▸ hroom
  obtain ⟨-, hschema⟩ := appendDescriptor_schema hd hlt d
  have heCount := (appendDescriptor_eCount d hlt).trans he
  rw [appendDescriptor_frame] at hschema heCount ⊢
  exact ⟨hc, hschema, heCount, hrest⟩

/-- CFG_FIELD loads one descriptor, while the store has room (R66). -/
theorem serves_cfgField (hl : s.Loads cfg w bo fo ds) (hroom : ds.length < maxFields) (hs : s.rsp = none)
    (d : Descriptor) (hh : s.host = hostOf [⟨encode (.cfgField d.id d.width), 0⟩] ++ rest) :
    ∃ u, Serves [⟨encode (.cfgField d.id d.width), 0⟩] s u ∧ u.Loads cfg w bo fo (ds ++ [d]) ∧
      u.rsp = none ∧ u.host = rest := by
  have ⟨hc, _⟩ := hl
  have hexec := execCfgField_eq (s := s.offered rest) hc d.id d.width
  exact ⟨_, serves_ok rfl hs hh hexec, State.Loads.append (s := s.offered rest) hl hroom d, rfl, rfl⟩

/-- CFG_FIELD after CFG_FIELD loads the schema, while the store has room (R66). -/
theorem serves_cfgFields (hl : s.Loads cfg w bo fo ds) (hlen : (ds ++ ds').length ≤ maxFields) (hs : s.rsp = none)
    (hh : s.host = hostOf (ds'.map fun d => ⟨encode (.cfgField d.id d.width), 0⟩) ++ rest) :
    ∃ u, Serves (ds'.map fun d => ⟨encode (.cfgField d.id d.width), 0⟩) s u ∧ u.Loads cfg w bo fo (ds ++ ds') ∧
      u.rsp = none ∧ u.host = rest := by
  induction ds' generalizing s ds with
  | nil => exact ⟨s, .nil s, by rwa [List.append_nil], hs, hh⟩
  | cons d ds' ih =>
    have hroom : ds.length < maxFields := by
      rw [List.length_append, List.length_cons] at hlen
      omega
    rw [List.append_cons] at hlen ⊢
    obtain ⟨t, hone, hlt, ht, hht⟩ := serves_cfgField hl hroom hs d hh
    obtain ⟨u, hrest, hu⟩ := ih hlt hlen ht hht
    exact ⟨u, hone.append hrest, hu⟩

/-- A schema that passes has at most as many fields as the store has entries (R18, R68). -/
theorem length_le_of_passes (hp : passes false (validate ds w) = true) : ds.length ≤ maxFields := by
  have hfills := fills_of_passes hp
  have hle := List.length_le_sum_of_one_le (widths ds) hfills.pos
  rw [widths_length, hfills.sum] at hle
  exact hle.trans hfills.le

/-- CFG_COMMIT of a schema that passes puts it to use, every slot 0 (R67). -/
theorem serves_cfgCommit (hl : s.Loads cfg w bo fo ds) (hp : passes false (validate ds w) = true) (hs : s.rsp = none)
    (hh : s.host = hostOf [⟨encode .cfgCommit, 0⟩] ++ rest) :
    ∃ u, Serves [⟨encode .cfgCommit, 0⟩] s u ∧ (u.host = rest ∧ u.rsp = none) ∧ u.Successful ∧ u.cstate = .valid ∧
      u.wsel = w ∧ u.bo = bo ∧ u.fo = fo ∧ u.schema? = some ds ∧
      u.slot = List.replicate cfg.nCont (List.replicate ds.length 0) := by
  obtain ⟨hc, hd, he, hf, rfl, rfl, rfl, rfl⟩ := hl
  have hexec := execCfgCommit_of_passes (s := s.offered rest) hc hd (by rwa [he])
  refine ⟨_, serves_ok rfl hs hh hexec, ⟨rfl, rfl⟩, hf, rfl, rfl, rfl, rfl, hd, ?_⟩
  rw [schema_length hd]
  rfl

/-- Settles O57: CFG_BEGIN starts the empty schema, the CFG_FIELDs load `ds`, and CFG_COMMIT puts it to use. -/
theorem bootOrderMakesTheBlockUsable : Obligations.BootOrderMakesTheBlockUsable := by
  intro cfg w bo fo ds _ hp
  obtain ⟨s₁, hbegin, hl₁, hs₁, hh₁⟩ := serves_cfgBegin (s := runStart cfg (bootCommands w bo fo ds)) (w := w)
    (bo := bo) (fo := fo) nofun rfl rfl rfl
  obtain ⟨s₂, hfields, hl₂, hs₂, hh₂⟩ := serves_cfgFields hl₁ (length_le_of_passes hp) hs₁
    (hh₁.trans List.flatMap_append)
  obtain ⟨s₃, hcommit, hdone⟩ := serves_cfgCommit hl₂ hp hs₂ hh₂
  exact ⟨s₃, ((hbegin.append hfields).append hcommit).run, hdone⟩

end Sys2Proof.Machine
end
